-- ==== Sys2Proof/Word.lean ====
section
/-! DEFINITION. The widths of the LGE (00_scope.md R5 to R7) and the two-valued types the spec names. -/

namespace Sys2Proof

/-- A byte: every coordinate, width and height operand, and every byte on the bus (R5, R7). -/
abbrev Byte := BitVec 8

/-- Half a byte: a tag or four bits of data of a parameter byte (R59, R60). -/
abbrev Nibble := BitVec 4

/-- A colour in its 16-bit carrier (R5 `COLOR_BITS`, R65). -/
abbrev Color := BitVec 16

/-- An address of `TEXT`, `PIXBUF` or `PIXTAB` (R6). -/
abbrev Addr := BitVec 16

/-- An address of `FONT` (R6 `FONT_ADDR_BITS`). -/
abbrev FontAddr := BitVec 11

/-- A command word `W[87:0]` (R45). -/
abbrev CmdWord := BitVec 88

/-- The two states of the register-select line: `RS = C` and `RS = D` (R13). -/
inductive RsMode where
  | command
  | data
deriving DecidableEq, Repr, Inhabited

/-- A step direction, `+1` or `−1` (R17 `SX`, `SY`). -/
inductive Dir where
  | plus
  | minus
deriving DecidableEq, Repr, Inhabited

/-- An electrical level of an output line (R6, R12, R13). -/
inductive Level where
  | low
  | high
deriving DecidableEq, Repr, Inhabited

/-- The four read-only address spaces (R25). -/
inductive Space where
  | font
  | text
  | pixbuf
  | pixtab
deriving DecidableEq, Repr

/-- A bus event (R9): the LGE's only outputs. -/
inductive Event where
  /-- `CE(v)`: assert (`true`) or deassert chip-enable. -/
  | ce (v : Bool)
  /-- `RS(m)`: put register-select in command or data mode. -/
  | rs (m : RsMode)
  /-- `TX(b)`: transfer one byte; the byte the channel returns is discarded. -/
  | tx (b : Byte)
deriving DecidableEq, Repr

/-- What the LGE does, one thing after the other (R36): a memory read or a bus event. -/
inductive Action where
  | read (space : Space) (addr : Nat)
  | bus (e : Event)
deriving DecidableEq, Repr

/-- The scratch registers (R17), with the widths given there. -/
structure Scratch where
  x : Byte := 0
  y : Byte := 0
  x2 : Byte := 0
  y2 : Byte := 0
  dx : Byte := 0
  dy : Byte := 0
  sx : Dir := .plus
  sy : Dir := .plus
  err : BitVec 10 := 0
  e2 : BitVec 10 := 0
  fg : Color := 0
  bg : Color := 0
  ptr : Addr := 0
  cnt : BitVec 16 := 0
  ch : Byte := 0
  gb : FontAddr := 0
  gw : Byte := 0
  col : Byte := 0
  bits : Byte := 0
deriving DecidableEq, Repr, Inhabited

end Sys2Proof
end

