-- ==== Sys2Proof/Config.lean ====
section
/-! DEFINITION. The parameters of 00_scope.md: the values R5 fixes, and the values R6 leaves open. An open value is
an opaque constant: nothing can be proved of it, so a claim about it holds for every choice (log entry 9). -/

namespace Sys2Proof.Config

/-- `SCREEN_W` (R5). -/
def screenW : Nat := 101

/-- `SCREEN_H` (R5). -/
def screenH : Nat := 80

/-- `X_SCALE` (R5). -/
def xScale : Nat := 2

/-- `X_OFF_START` (R5). -/
def xOffStart : Nat := 6

/-- `X_OFF_END` (R5). -/
def xOffEnd : Nat := 7

/-- `FIRST_CHAR` (R5). -/
def firstChar : Nat := 32

/-- `GLYPH_STRIDE` (R5). -/
def glyphStride : Nat := 6

/-- `GLYPH_MAX_W` (R5): the largest width the font's contract allows; no operation compares with it (R93). -/
def glyphMaxW : Nat := 5

/-- `GLYPH_ROWS` (R5). -/
def glyphRows : Nat := 8

/-- `TEXT_END` (R5). -/
def textEnd : Byte := 0x00

/-- `CONTRAST_MAX` (R5). -/
def contrastMax : Nat := 127

/-- `STARTLINE_MAX` (R5). -/
def startLineMax : Nat := 79

/-- Number of addresses of a space (R6, R25). -/
def spaceSize : Space → Nat
  | .font => 2048
  | .text => 65536
  | .pixbuf => 65536
  | .pixtab => 65536

/-- What a memory address with no listed value reads as. DESIGN CHOICE (log entry 5): the contents are the host's and
the spec gives none (R6, R23). -/
def unlisted (w : Nat) : BitVec w := 0

/-- More pixels than any Bresenham line has (R91 a: `max(DX, DY) + 1 ≤ 256`), log entry 14. -/
def lineFuel : Nat := 256

/-- `IL_TAG_YS_LO`, `T1` of R62 and R83 (open, R6). -/
opaque ilTagYsLo : Nibble

/-- `IL_TAG_YS_HI`, `T2` (open, R6). -/
opaque ilTagYsHi : Nibble

/-- `IL_TAG_YE_LO`, `T3` (open, R6). -/
opaque ilTagYeLo : Nibble

/-- `IL_TAG_YE_HI`, `T4` (open, R6). -/
opaque ilTagYeHi : Nibble

/-- `IL_TAG_MODE`, `T5` (open, R6). -/
opaque ilTagMode : Nibble

/-- `CE_ASSERT_LEVEL` (open, R6, R12). -/
opaque ceAssertLevel : Level

/-- `RS_COMMAND_LEVEL` (open, R6, R13). -/
opaque rsCommandLevel : Level

/-- `BRINGUP_TABLE`, 139 bytes (open, R6, R119). -/
opaque bringupTable : Vector Byte 139

/-- `CONFIG_TABLE`, 19 bytes (open, R6, R119). -/
opaque configTable : Vector Byte 19

/-- `DEFAULT_CONTRAST`, 0 to 127 (open, R6, R119). -/
opaque defaultContrast : BitVec 7

/-- The free values of the scratch registers: the n-th drawing of values for all of them. R18 calls a scratch
register's value after an operation unspecified (93 U15: any value), log entry 3. -/
opaque freeScratch : Nat → Scratch

end Sys2Proof.Config
end

