-- ==== Sys2Proof/Syntax.lean ====
section
/-! DEFINITION. The commands of the LGE: one constructor per row of spec/opcode_table.json, with the operands
of 30_encoding.md R47 in the table's order, each of the width its field has (R46, R48). -/

namespace Sys2Proof

/-- A command (R47). A Boolean operand is `a[0]`, the mode is `c[1:0]` (R48); fields an opcode does not use are
no part of the command (R51). -/
inductive Instr where
  | setwindow (x y width height : Byte)
  | setcontrast (contrast : Byte)
  | setlcdon (on : Bool)
  | inversescreen (inverse : Bool)
  | setstartline (line : Byte)
  | setinverselines (y height : Byte) (mode : BitVec 2)
  | drawpixel (x y : Byte) (color : Color)
  | drawline (x1 y1 x2 y2 : Byte) (color : Color)
  | fillrect (x y width height : Byte) (color : Color)
  | drawrect (x y width height : Byte) (color : Color)
  | clear (color : Color)
  | drawbitmapb (x y width height : Byte) (ptr : Addr)
  | drawbitmapt (x y width height : Byte) (ptr : Addr)
  | drawstring (x y : Byte) (color background : Color) (ptr : Addr)
deriving DecidableEq, Repr

end Sys2Proof
end

