-- ==== Sys2Proof/WellFormed.lean ====
section
/-! DEFINITION. The operand preconditions of the commands (70_reset_and_hazards.md R121, R122, R126; 30_encoding.md R52).
They are duties of the host. No operation tests them (R76, R108): the machine runs a command that is not well-formed
like any other, and the encoding admits every operand value its field holds. The duties that depend on memory
(R122 a to d, and R126 for the words of a bitmap) are in `Machine/View.lean`: `stringOk`, `pixelsOk`, and `dutiesOk` for
all of a command's duties. -/

namespace Sys2Proof

/-- The window invariant with a non-empty window (R121). -/
def windowOk (x y width height : Nat) : Bool :=
  decide (1 ≤ width) && decide (1 ≤ height) && decide (x + width ≤ Config.screenW) && decide (y + height ≤ Config.screenH)

/-- A pixel of the screen (R121: `x ≤ 100`, `y ≤ 79`). -/
def pixelOk (x y : Nat) : Bool := decide (x < Config.screenW) && decide (y < Config.screenH)

/-- A legal colour has its 4 high bits zero (R65, R126). -/
def colorOk (c : Color) : Bool := decide (c.toNat < 4096)

/-- Contrast 0 to 127 (R126). -/
def contrastOk (v : Byte) : Bool := decide (v.toNat ≤ Config.contrastMax)

/-- Start line 0 to 79 (R126). -/
def startLineOk (v : Byte) : Bool := decide (v.toNat ≤ Config.startLineMax)

/-- A named inverse mode (R57, R126: 0, 1 or 3). -/
def modeOk (m : BitVec 2) : Bool := decide (m ≠ 2)

/-- The rows of an inverse-line range lie on the screen (R126). DESIGN CHOICE: a height of 0 is counted as breaking this,
which no rule states; R83 says only that its end row is `y - 1` modulo 256 (log entry 23). -/
def rowsOk (y height : Nat) : Bool := decide (1 ≤ height) && decide (y + height ≤ Config.screenH)

/-- The preconditions of a command that its operands alone decide (R121, R122 e, R126). -/
def Instr.wellFormed : Instr → Bool
  | .setwindow x y width height => windowOk x.toNat y.toNat width.toNat height.toNat
  | .setcontrast contrast => contrastOk contrast
  | .setlcdon _ => true
  | .inversescreen _ => true
  | .setstartline line => startLineOk line
  | .setinverselines y height mode => rowsOk y.toNat height.toNat && modeOk mode
  | .drawpixel x y color => pixelOk x.toNat y.toNat && colorOk color
  | .drawline x1 y1 x2 y2 color => pixelOk x1.toNat y1.toNat && pixelOk x2.toNat y2.toNat && colorOk color
  | .fillrect x y width height color => windowOk x.toNat y.toNat width.toNat height.toNat && colorOk color
  | .drawrect x y width height color => windowOk x.toNat y.toNat width.toNat height.toNat && colorOk color
  | .clear color => colorOk color
  | .drawbitmapb x y width height _ => windowOk x.toNat y.toNat width.toNat height.toNat
  | .drawbitmapt x y width height _ => windowOk x.toNat y.toNat width.toNat height.toNat
  | .drawstring _ y color background _ =>
      decide (y.toNat + Config.glyphRows ≤ Config.screenH) && colorOk color && colorOk background

end Sys2Proof
end

