-- ==== Sys2Proof/Decode.lean ====
section
/-! DEFINITION. Command words (30_encoding.md Part A): the fields of the one 88-bit format, the decoder, total on any
word and any bytes, and the encoder. -/

namespace Sys2Proof

/-- Why a word or a byte string is no command. -/
inductive DecodeError where
  /-- The byte `B0` is none of the fourteen opcodes of R47 (R50). -/
  | illegalOpcode (op : Byte)
  /-- Fewer than the eleven bytes of a command word (R45, R54). -/
  | truncated (length : Nat)
deriving DecidableEq, Repr

/-- `op = W[87:80]` (R46). -/
def opField (w : CmdWord) : Byte := w.extractLsb' 80 8

/-- `a = W[79:72]` (R46). -/
def aField (w : CmdWord) : Byte := w.extractLsb' 72 8

/-- `b = W[71:64]` (R46). -/
def bField (w : CmdWord) : Byte := w.extractLsb' 64 8

/-- `c = W[63:56]` (R46). -/
def cField (w : CmdWord) : Byte := w.extractLsb' 56 8

/-- `d = W[55:48]` (R46). -/
def dField (w : CmdWord) : Byte := w.extractLsb' 48 8

/-- `fg = W[47:32]` (R46). -/
def fgField (w : CmdWord) : Color := w.extractLsb' 32 16

/-- `bg = W[31:16]` (R46). -/
def bgField (w : CmdWord) : Color := w.extractLsb' 16 16

/-- `ptr = W[15:0]` (R46). -/
def ptrField (w : CmdWord) : Addr := w.extractLsb' 0 16

/-- A Boolean operand is bit 0 of its field (R48). -/
def boolOperand (v : Byte) : Bool := v.getLsbD 0

/-- The mode operand is `c[1:0]` (R48). -/
def modeOperand (v : Byte) : BitVec 2 := v.extractLsb' 0 2

/-- The decoder (R47 to R51): the opcode alone selects the command; fields the opcode does not use are ignored. -/
def decode (w : CmdWord) : Except DecodeError Instr :=
  match (opField w).toNat with
  | 0x01 => .ok (.setwindow (aField w) (bField w) (cField w) (dField w))
  | 0x02 => .ok (.setcontrast (aField w))
  | 0x03 => .ok (.setlcdon (boolOperand (aField w)))
  | 0x04 => .ok (.inversescreen (boolOperand (aField w)))
  | 0x05 => .ok (.setstartline (aField w))
  | 0x06 => .ok (.setinverselines (aField w) (bField w) (modeOperand (cField w)))
  | 0x10 => .ok (.drawpixel (aField w) (bField w) (fgField w))
  | 0x11 => .ok (.drawline (aField w) (bField w) (cField w) (dField w) (fgField w))
  | 0x12 => .ok (.fillrect (aField w) (bField w) (cField w) (dField w) (fgField w))
  | 0x13 => .ok (.drawrect (aField w) (bField w) (cField w) (dField w) (fgField w))
  | 0x14 => .ok (.clear (fgField w))
  | 0x15 => .ok (.drawbitmapb (aField w) (bField w) (cField w) (dField w) (ptrField w))
  | 0x16 => .ok (.drawbitmapt (aField w) (bField w) (cField w) (dField w) (ptrField w))
  | 0x20 => .ok (.drawstring (aField w) (bField w) (fgField w) (bgField w) (ptrField w))
  | _ => .error (.illegalOpcode (opField w))

/-- The eleven bytes `B0 .. B10` of a word, `Bk = W[87 − 8k : 80 − 8k]` (R45, R54). -/
def bytesOfWord (w : CmdWord) : List Byte :=
  [w.extractLsb' 80 8, w.extractLsb' 72 8, w.extractLsb' 64 8, w.extractLsb' 56 8, w.extractLsb' 48 8, w.extractLsb' 40 8,
   w.extractLsb' 32 8, w.extractLsb' 24 8, w.extractLsb' 16 8, w.extractLsb' 8 8, w.extractLsb' 0 8]

/-- The word whose serial form is `B0 .. B10` (R54). -/
def wordOfBytes (b0 b1 b2 b3 b4 b5 b6 b7 b8 b9 b10 : Byte) : CmdWord :=
  b0 ++ b1 ++ b2 ++ b3 ++ b4 ++ b5 ++ b6 ++ b7 ++ b8 ++ b9 ++ b10

/-- Decoding the serial form (R54): the command of the first eleven bytes and the bytes after them. -/
def decodeBytes : List Byte → Except DecodeError (Instr × List Byte)
  | b0 :: b1 :: b2 :: b3 :: b4 :: b5 :: b6 :: b7 :: b8 :: b9 :: b10 :: rest =>
    match decode (wordOfBytes b0 b1 b2 b3 b4 b5 b6 b7 b8 b9 b10) with
    | .ok i => .ok (i, rest)
    | .error e => .error e
  | bs => .error (.truncated bs.length)

/-- The word with the given fields (R46). -/
def packWord (op a b c d : Byte) (fg bg : Color) (ptr : Addr) : CmdWord :=
  op ++ a ++ b ++ c ++ d ++ fg ++ bg ++ ptr

/-- The byte that carries a Boolean operand, its reserved bits zero (R48, R51). -/
def byteOfBool (v : Bool) : Byte := if v then 1 else 0

/-- The opcode of a command (R47). -/
def Instr.opcode : Instr → Byte
  | .setwindow _ _ _ _ => 0x01
  | .setcontrast _ => 0x02
  | .setlcdon _ => 0x03
  | .inversescreen _ => 0x04
  | .setstartline _ => 0x05
  | .setinverselines _ _ _ => 0x06
  | .drawpixel _ _ _ => 0x10
  | .drawline _ _ _ _ _ => 0x11
  | .fillrect _ _ _ _ _ => 0x12
  | .drawrect _ _ _ _ _ => 0x13
  | .clear _ => 0x14
  | .drawbitmapb _ _ _ _ _ => 0x15
  | .drawbitmapt _ _ _ _ _ => 0x16
  | .drawstring _ _ _ _ _ => 0x20

/-- The encoder (R47): each operand in its field, every reserved field and bit zero, as the assembler writes them (R51). -/
def encode (i : Instr) : CmdWord :=
  match i with
  | .setwindow x y width height => packWord i.opcode x y width height 0 0 0
  | .setcontrast contrast => packWord i.opcode contrast 0 0 0 0 0 0
  | .setlcdon on => packWord i.opcode (byteOfBool on) 0 0 0 0 0 0
  | .inversescreen inverse => packWord i.opcode (byteOfBool inverse) 0 0 0 0 0 0
  | .setstartline line => packWord i.opcode line 0 0 0 0 0 0
  | .setinverselines y height mode => packWord i.opcode y height (mode.setWidth 8) 0 0 0 0
  | .drawpixel x y color => packWord i.opcode x y 0 0 color 0 0
  | .drawline x1 y1 x2 y2 color => packWord i.opcode x1 y1 x2 y2 color 0 0
  | .fillrect x y width height color => packWord i.opcode x y width height color 0 0
  | .drawrect x y width height color => packWord i.opcode x y width height color 0 0
  | .clear color => packWord i.opcode 0 0 0 0 color 0 0
  | .drawbitmapb x y width height ptr => packWord i.opcode x y width height 0 0 ptr
  | .drawbitmapt x y width height ptr => packWord i.opcode x y width height 0 0 ptr
  | .drawstring x y color background ptr => packWord i.opcode x y 0 0 color background ptr

/-- The bits of a word that a command of this kind uses: the opcode and the fields and bits R47 and R48 give it. -/
def Instr.usedMask : Instr → CmdWord
  | .setwindow _ _ _ _ => packWord 0xFF 0xFF 0xFF 0xFF 0xFF 0 0 0
  | .setcontrast _ => packWord 0xFF 0xFF 0 0 0 0 0 0
  | .setlcdon _ => packWord 0xFF 0x01 0 0 0 0 0 0
  | .inversescreen _ => packWord 0xFF 0x01 0 0 0 0 0 0
  | .setstartline _ => packWord 0xFF 0xFF 0 0 0 0 0 0
  | .setinverselines _ _ _ => packWord 0xFF 0xFF 0xFF 0x03 0 0 0 0
  | .drawpixel _ _ _ => packWord 0xFF 0xFF 0xFF 0 0 0xFFFF 0 0
  | .drawline _ _ _ _ _ => packWord 0xFF 0xFF 0xFF 0xFF 0xFF 0xFFFF 0 0
  | .fillrect _ _ _ _ _ => packWord 0xFF 0xFF 0xFF 0xFF 0xFF 0xFFFF 0 0
  | .drawrect _ _ _ _ _ => packWord 0xFF 0xFF 0xFF 0xFF 0xFF 0xFFFF 0 0
  | .clear _ => packWord 0xFF 0 0 0 0 0xFFFF 0 0
  | .drawbitmapb _ _ _ _ _ => packWord 0xFF 0xFF 0xFF 0xFF 0xFF 0 0 0xFFFF
  | .drawbitmapt _ _ _ _ _ => packWord 0xFF 0xFF 0xFF 0xFF 0xFF 0 0 0xFFFF
  | .drawstring _ _ _ _ _ => packWord 0xFF 0xFF 0xFF 0 0 0xFFFF 0xFFFF 0xFFFF

/-- A row of spec/opcode_table.json as the 88-bit word its lowest `nbits` bits give, every bit above them zero. A command
word is ONE 88-bit word (R45), so bit 0 of `w` is bit 0 of `W`. -/
def wordOfTable (nbits w : Nat) : CmdWord := BitVec.ofNat 88 (w % 2 ^ nbits)

/-- What the decoder reads from a word numbered as spec/opcode_table.json numbers it (`none` where it is illegal). -/
def decodeTableWord (nbits w : Nat) : Option Instr :=
  match decode (wordOfTable nbits w) with
  | .ok i => some i
  | .error _ => none

end Sys2Proof
end

