-- ==== Sys2Proof/Machine/State.lean ====
section
/-! DEFINITION. The state of the machine (10_state.md R11 to R23, 20_memory.md R25, 70_reset_and_hazards.md R130), its
reset value, and the reasons a step can stop (there are none: 60_exceptions.md R106). -/

namespace Sys2Proof.Machine

/-- The contents of a space whose unit has `w` bits: (address, value) pairs, addresses strictly rising, no pair equal to
what an unlisted address reads as (`Cells.wfFrom` in Ops). With `w = 8` the pairs are `Host.Cell`s. -/
abbrev Cells (w : Nat) := List (Nat × BitVec w)

/-- The four memories the LGE reads (R25). DESIGN CHOICE: they are disjoint, so a write to one never changes another; whether
`PIXBUF` and `PIXTAB` are one memory or two is left to the platform (R35; log entry 22). -/
structure Memory where
  /-- `FONT` (R26). -/
  font : Cells 8
  /-- `TEXT` (R29). -/
  text : Cells 8
  /-- `PIXBUF` (R30). -/
  pixbuf : Cells 16
  /-- `PIXTAB` (R30). -/
  pixtab : Cells 16
deriving DecidableEq, Repr

/-- The state of the machine and of its run. -/
structure State where
  /-- The chip-enable line, `true` for asserted (R12). -/
  ce : Bool
  /-- The register-select line (R13). -/
  rs : RsMode
  /-- `STATUS.busy`: an operation is in progress (R15). -/
  busy : Bool
  /-- `STATUS.ill`: an illegal command word has been taken since reset (R15). -/
  ill : Bool
  /-- The scratch registers (R17). They mean something only while `busy`. -/
  scratch : Scratch
  /-- The four memories (R25). -/
  mem : Memory
  /-- The command words the host presents, in order (R20). -/
  prog : List CmdWord
  /-- The index of the next command word (R20). -/
  k : Nat
  /-- Every memory read and bus event so far, oldest first (R9, R36). -/
  log : List Action
  /-- The model's own: how many times scratch registers have been given free values (log entry 3). -/
  freeNext : Nat
deriving DecidableEq, Repr

/-- Why the machine stops with a fault. There is no such reason: "The LGE raises no synchronous exception and has no
trap mechanism" (R106), and an illegal command completes (R107). Safe: nothing raises it. -/
inductive Fault where
deriving DecidableEq, Repr

/-- Why an instruction is refused. -/
inductive Refusal where
  /-- An instruction with no meaning yet, raised by an arm of `exec`. Safe: the model stops. No arm raises it. -/
  | notModelled (mnemonic : String)
deriving DecidableEq, Repr

/-- Right after reset (R23): `CE = 0`, `RS = D`, `busy = 0`, `ill = 0`, `k = 0`, no event emitted. The scratch registers
are at the values log entry 4 names, the memories list nothing (log entry 5), and no word is presented (log entry 1). -/
def State.reset : State where
  ce := false
  rs := .data
  busy := false
  ill := false
  scratch := {}
  mem := { font := [], text := [], pixbuf := [], pixtab := [] }
  prog := []
  k := 0
  log := []
  freeNext := 0

end Sys2Proof.Machine
end

