-- ==== Sys2Proof/Machine/Flags.lean ====
section
/-! DEFINITION. The status register (10_state.md R15). There are no condition codes (R19): no operation computes a flag
from a result, and the only flag is `STATUS.ill`. -/

namespace Sys2Proof.Machine

/-- `STATUS` as the host reads it: bit 0 `busy`, bit 1 `ill` (R15). -/
def State.status (s : State) : BitVec 2 := BitVec.ofBool s.ill ++ BitVec.ofBool s.busy

/-- `STATUS.ill <- 1` (R50): sticky, cleared only by reset (R15). -/
def State.setIll (s : State) : State := { s with ill := true }

/-- Idle: not busy, chip-enable deasserted, data mode (R21). -/
def State.Idle (s : State) : Prop := s.busy = false ∧ s.ce = false ∧ s.rs = .data

end Sys2Proof.Machine
end

