-- ==== Sys2Proof/Machine/Operands.lean ====
section
/-! DEFINITION. Operand forms and operand arithmetic: nibbles, tagged parameter bytes and nibble splits
(30_encoding.md R59, R60), colour pairs (R65, R44), coordinates modulo 256 (40_session_primitives.md R75), glyph
addresses (20_memory.md R28). -/

namespace Sys2Proof.Machine

/-- `Lo(v) = v[3:0]` (R7). -/
def lo (v : Byte) : Nibble := v.extractLsb' 0 4

/-- `Hi(v) = v[7:4]` (R7). -/
def hi (v : Byte) : Nibble := v.extractLsb' 4 4

/-- A parameter byte: a tag in the high nibble, four bits of data in the low one, `(tag << 4) | data` (R59, R60). -/
def tagged (tag data : Nibble) : Byte := tag ++ data

/-- `Split(tLo, tHi, v)`: low half first (R60). -/
def split (tagLo tagHi : Nibble) (v : Byte) : List Byte := [tagged tagLo (lo v), tagged tagHi (hi v)]

/-- An integer reduced modulo 256 (R75). -/
def mod256 (v : Int) : Byte := BitVec.ofInt 8 v

/-- A byte operand as the integer it stands for: zero-extended (R48). -/
def coord (v : Byte) : Int := v.toNat

/-- `c[15:8]`. -/
def colorHi (c : Color) : Byte := c.extractLsb' 8 8

/-- `c[7:0]`. -/
def colorLo (c : Color) : Byte := c.extractLsb' 0 8

/-- `Pair(c)`: high byte first, unmasked (R65). -/
def pair (c : Color) : List Byte := [colorHi c, colorLo c]

/-- The 12-bit colour a pair of bytes carries, `b_hi[3:0]` above `b_lo` (R44). -/
def pairColor (bHi bLo : Byte) : BitVec 12 := lo bHi ++ bLo

/-- `SETLCDON`'s data bit (R62, R80). -/
def bitNibble (v : Bool) : Nibble := if v then 1 else 0

/-- The 2-bit mode in a nibble (R83). -/
def modeNibble (m : BitVec 2) : Nibble := m.setWidth 4

/-- `GlyphBase(c) = ((c − 32) × 6) mod 2048`, in 11-bit modular arithmetic (R28). -/
def glyphBase (c : Byte) : FontAddr := (c.setWidth 11 - 32#11) * 6#11

/-- The font address of the bitmask of column `col`: `GB + 1 + COL`, modulo 2048 (R93, R98). -/
def columnAddr (gb : FontAddr) (col : Byte) : FontAddr := gb + 1#11 + col.setWidth 11

/-- `Sel(bit)`: the foreground where the bit is set, the background where it is clear (R94). -/
def sel (fg bg : Color) (bit : Bool) : Color := if bit then fg else bg

/-- The eight colours of a glyph column, `BITS[7]` first (R95). -/
def columnColors (fg bg : Color) (bits : Byte) : List Color :=
  [sel fg bg (bits.getLsbD 7), sel fg bg (bits.getLsbD 6), sel fg bg (bits.getLsbD 5), sel fg bg (bits.getLsbD 4),
   sel fg bg (bits.getLsbD 3), sel fg bg (bits.getLsbD 2), sel fg bg (bits.getLsbD 1), sel fg bg (bits.getLsbD 0)]

/-- A colour's red, green and blue (R44). -/
def redOf (c : BitVec 12) : Nibble := c.extractLsb' 8 4

/-- See `redOf`. -/
def greenOf (c : BitVec 12) : Nibble := c.extractLsb' 4 4

/-- See `redOf`. -/
def blueOf (c : BitVec 12) : Nibble := c.extractLsb' 0 4

end Sys2Proof.Machine
end

