-- ==== Sys2Proof/Machine/Ops.lean ====
section
/-! DEFINITION. The shared operations over memory, lines and the run: reading and writing a space (20_memory.md R25 to R35),
emitting events (00_scope.md R9), fetching a command word (10_state.md R16, R20), completing an operation, and taking an
illegal command (60_exceptions.md R107), the one recorded condition of a machine with no exceptions. -/

namespace Sys2Proof.Machine

/-! ### The memories -/

/-- The value at an address: the listed one, else `Config.unlisted`. -/
def readCell {w : Nat} (m : Cells w) (a : Nat) : BitVec w :=
  match m with
  | [] => Config.unlisted w
  | (b, v) :: rest => if a = b then v else readCell rest a

/-- Setting the value at an address; writing `Config.unlisted` removes the entry, so the form stays canonical. -/
def writeCell {w : Nat} (m : Cells w) (a : Nat) (v : BitVec w) : Cells w :=
  match m with
  | [] => if v = Config.unlisted w then [] else [(a, v)]
  | (b, u) :: rest =>
    if a < b then (if v = Config.unlisted w then (b, u) :: rest else (a, v) :: (b, u) :: rest)
    else if a = b then (if v = Config.unlisted w then rest else (a, v) :: rest)
    else (b, u) :: writeCell rest a v

/-- The canonical form: addresses from `low` on, strictly rising, below `size`, no value an unlisted address reads as. -/
def Cells.wfFrom {w : Nat} (size low : Nat) : Cells w → Bool
  | [] => true
  | (a, v) :: rest => decide (low ≤ a) && decide (a < size) && decide (v ≠ Config.unlisted w) && Cells.wfFrom size (a + 1) rest

/-- The canonical form of all four memories. -/
def Memory.wf (m : Memory) : Bool :=
  Cells.wfFrom (Config.spaceSize .font) 0 m.font && Cells.wfFrom (Config.spaceSize .text) 0 m.text &&
    Cells.wfFrom (Config.spaceSize .pixbuf) 0 m.pixbuf && Cells.wfFrom (Config.spaceSize .pixtab) 0 m.pixtab

/-- `FontRead(a)` (R8). -/
def Memory.fontRead (m : Memory) (a : FontAddr) : Byte := readCell m.font a.toNat

/-- `TextRead(a)` (R8). -/
def Memory.textRead (m : Memory) (a : Addr) : Byte := readCell m.text a.toNat

/-- The two pixel sources (R30). -/
inductive PixSource where
  | pixbuf
  | pixtab
deriving DecidableEq, Repr

/-- The address space of a pixel source. -/
def PixSource.space : PixSource → Space
  | .pixbuf => .pixbuf
  | .pixtab => .pixtab

/-- `PixRead(s, a)` (R8). -/
def Memory.pixRead (m : Memory) (src : PixSource) (a : Addr) : Color :=
  match src with
  | .pixbuf => readCell m.pixbuf a.toNat
  | .pixtab => readCell m.pixtab a.toNat

/-! ### Events and the lines -/

/-- The bus events among some actions: the output trace (R9). -/
def eventsOf : List Action → List Event
  | [] => []
  | .bus e :: rest => e :: eventsOf rest
  | .read _ _ :: rest => eventsOf rest

/-- The memory reads among some actions, in order (R36). -/
def readsOf : List Action → List (Space × Nat)
  | [] => []
  | .bus _ :: rest => readsOf rest
  | .read sp a :: rest => (sp, a) :: readsOf rest

/-- Bus events as actions. -/
def bus (es : List Event) : List Action := es.map .bus

/-- Chip-enable after some events, from its value before them (R9: `emit CE(v)` sets `CE` to `v`). -/
def ceAfter (ce : Bool) : List Event → Bool
  | [] => ce
  | .ce v :: es => ceAfter v es
  | .rs _ :: es => ceAfter ce es
  | .tx _ :: es => ceAfter ce es

/-- Register-select after some events, from its value before them (R9). -/
def rsAfter (rs : RsMode) : List Event → RsMode
  | [] => rs
  | .rs m :: es => rsAfter m es
  | .ce _ :: es => rsAfter rs es
  | .tx _ :: es => rsAfter rs es

/-- The output trace of the run so far (R9). -/
def State.trace (s : State) : List Event := eventsOf s.log

/-- The memory reads of the run so far. -/
def State.reads (s : State) : List (Space × Nat) := readsOf s.log

/-- Perform actions in order: they are added to the log and the lines follow the events among them (R9, R36). -/
def State.perform (s : State) (acts : List Action) : State :=
  { s with ce := ceAfter s.ce (eventsOf acts), rs := rsAfter s.rs (eventsOf acts), log := s.log ++ acts }

/-! ### Taking and completing a command -/

/-- The word the host presents next, if any (R16, R20). -/
def State.fetchWord (s : State) : Option CmdWord := s.prog[s.k]?

/-- The end of an operation: `busy` falls, the command index advances by exactly 1 (R16, R20), and every scratch register
is left unspecified (R18): it takes a free value (log entry 3). -/
def State.finish (s : State) : State :=
  { s with busy := false, k := s.k + 1, scratch := Config.freeScratch s.freeNext, freeNext := s.freeNext + 1 }

/-- A whole operation: its actions, then its end (R16). -/
def State.complete (s : State) (acts : List Action) : State := (s.perform acts).finish

/-- Taking a command word with an illegal opcode: no event, no read, `STATUS.ill <- 1`, and it completes (R50, R107). -/
def State.takeIllegal (s : State) : State := s.setIll.complete []

/-- `prog` with `w` as the word at index `k`; words of zeros fill a gap before it. -/
def placeWord (w : CmdWord) : Nat → List CmdWord → List CmdWord
  | 0, [] => [w]
  | 0, _ :: rest => w :: rest
  | k + 1, [] => 0 :: placeWord w k []
  | k + 1, v :: rest => v :: placeWord w k rest

end Sys2Proof.Machine
end

