-- ==== Sys2Proof/Machine/Primitives.lean ====
section
/-! DEFINITION. The shared primitives (40_session_primitives.md, 42_line_rasterizer.md R84) as the events they emit. None
reads a memory or depends on the state. -/

namespace Sys2Proof.Machine

/-- `CmdSession(bytes)` (R67). -/
def cmdSession (bytes : List Byte) : List Event :=
  .rs .command :: .ce true :: (bytes.map .tx ++ [.ce false, .rs .data])

/-- `DataSession(bytes)` (R68). -/
def dataSession (bytes : List Byte) : List Event :=
  .ce true :: (bytes.map .tx ++ [.ce false])

/-- The ten bytes of the window command (R61). -/
def windowBytes (xs ys xe ye : Byte) : List Byte :=
  0xF0 :: (split 0 1 xs ++ split 2 3 ys ++ 0xF5 :: (split 0 1 xe ++ split 2 3 ye))

/-- `EmitWindow(x, y, w, h)` (R70). -/
def emitWindow (x y : Int) (w h : Nat) : List Event :=
  cmdSession (windowBytes
    (mod256 (2 * x + 6)) (mod256 y) (mod256 (2 * (x + w - 1) + 7)) (mod256 (y + h - 1)))

/-- `Stream(cs)` (R71): one data session, each colour as its pair. -/
def stream (cs : List Color) : List Event := dataSession (cs.flatMap pair)

/-- `Fill(x, y, w, h, c)` (R72); the count `w × h` does not wrap (R73), and may be 0 (R74). -/
def fill (x y : Int) (w h : Nat) (c : Color) : List Event :=
  emitWindow x y w h ++ stream (List.replicate (w * h) c)

/-- `Pixel(x, y, c)` (R84). -/
def pixel (x y : Int) (c : Color) : List Event := fill x y 1 1 c

end Sys2Proof.Machine
end

