-- ==== Sys2Proof/Machine/CommandEncoder.lean ====
section
/-! DEFINITION. The command encoder family (41_command_encoder.md): each command is one command session. -/

namespace Sys2Proof.Machine

/-- The bytes of SETINVERSELINES (R83, R62), with the five open tags. -/
def inverseLinesBytes (ys ye : Byte) (mode : BitVec 2) : List Byte :=
  0xF5 :: (split Config.ilTagYsLo Config.ilTagYsHi ys ++
    0xF5 :: (split Config.ilTagYeLo Config.ilTagYeHi ye ++ [0xF5, tagged Config.ilTagMode (modeNibble mode)]))

/-- SETWINDOW (R78). -/
def execSetwindow (x y width height : Byte) (s : State) : Host.Outcome State Fault Refusal :=
  .next (s.complete (bus (emitWindow (coord x) (coord y) width.toNat height.toNat)))

/-- SETCONTRAST (R79): the high nibble first, under tag 0xB. -/
def execSetcontrast (contrast : Byte) (s : State) : Host.Outcome State Fault Refusal :=
  .next (s.complete (bus (cmdSession [0xF4, tagged 0xB (hi contrast), tagged 0xA (lo contrast)])))

/-- SETLCDON (R80). -/
def execSetlcdon (on : Bool) (s : State) : Host.Outcome State Fault Refusal :=
  .next (s.complete (bus (cmdSession [0xF0, tagged 0x8 (bitNibble on)])))

/-- INVERSESCREEN (R81): it sets a state, it is no toggle. -/
def execInversescreen (inverse : Bool) (s : State) : Host.Outcome State Fault Refusal :=
  .next (s.complete (bus (cmdSession [0xF0, if inverse then 0x99 else 0x91])))

/-- SETSTARTLINE (R82). -/
def execSetstartline (line : Byte) (s : State) : Host.Outcome State Fault Refusal :=
  .next (s.complete (bus (cmdSession (0xF0 :: split 0x4 0x5 line))))

/-- SETINVERSELINES (R83): rows `y` to `(y + height − 1) mod 256`. -/
def execSetinverselines (y height : Byte) (mode : BitVec 2) (s : State) : Host.Outcome State Fault Refusal :=
  .next (s.complete (bus (cmdSession (inverseLinesBytes y (mod256 (coord y + coord height - 1)) mode))))

end Sys2Proof.Machine
end

