-- ==== Sys2Proof/Machine/Fill.lean ====
section
/-! DEFINITION. The fill and blit family (44_fill_and_blit.md). -/

namespace Sys2Proof.Machine

/-- The four passes of DRAWRECT: top row, bottom row, left column, right column (R102). -/
def rectEvents (x y width height : Byte) (color : Color) : List Event :=
  fill (coord x) (coord y) width.toNat 1 color ++
  fill (coord x) (coord (mod256 (coord y + coord height - 1))) width.toNat 1 color ++
  fill (coord x) (coord y) 1 height.toNat color ++
  fill (coord (mod256 (coord x + coord width - 1))) (coord y) 1 height.toNat color

/-- The pixel words of a blit, from address `a` on: each is read, then its two bytes are sent (R105; log entry 10). -/
def blitWords (m : Memory) (src : PixSource) : Nat → Addr → List Action
  | 0, _ => []
  | n + 1, a => .read src.space a.toNat :: (bus ((pair (m.pixRead src a)).map .tx) ++ blitWords m src n (a + 1))

/-- `BLIT(space)`: the window once, then one data session of `width × height` words (R105). -/
def blit (m : Memory) (src : PixSource) (x y width height : Byte) (ptr : Addr) : List Action :=
  bus (emitWindow (coord x) (coord y) width.toNat height.toNat) ++
    .bus (.ce true) :: (blitWords m src (width.toNat * height.toNat) ptr ++ [.bus (.ce false)])

/-- FILLRECT (R100). -/
def execFillrect (x y width height : Byte) (color : Color) (s : State) : Host.Outcome State Fault Refusal :=
  .next (s.complete (bus (fill (coord x) (coord y) width.toNat height.toNat color)))

/-- DRAWRECT (R102). -/
def execDrawrect (x y width height : Byte) (color : Color) (s : State) : Host.Outcome State Fault Refusal :=
  .next (s.complete (bus (rectEvents x y width height color)))

/-- CLEAR (R101). -/
def execClear (color : Color) (s : State) : Host.Outcome State Fault Refusal :=
  .next (s.complete (bus (fill 0 0 Config.screenW Config.screenH color)))

/-- DRAWBITMAPB (R103): from `PIXBUF`. -/
def execDrawbitmapb (x y width height : Byte) (ptr : Addr) (s : State) : Host.Outcome State Fault Refusal :=
  .next (s.complete (blit s.mem .pixbuf x y width height ptr))

/-- DRAWBITMAPT (R104): from `PIXTAB`. -/
def execDrawbitmapt (x y width height : Byte) (ptr : Addr) (s : State) : Host.Outcome State Fault Refusal :=
  .next (s.complete (blit s.mem .pixtab x y width height ptr))

end Sys2Proof.Machine
end

