-- ==== Sys2Proof/Machine/Line.lean ====
section
/-! DEFINITION. The pixel and line family (42_line_rasterizer.md): DRAWPIXEL and DRAWLINE with its horizontal, vertical and
Bresenham paths. The registers of the Bresenham path are integers, as R7 and R89 allow. -/

namespace Sys2Proof.Machine

/-- The registers of the Bresenham path (R89, R90). -/
structure LineRegs where
  x : Int
  y : Int
  x2 : Int
  y2 : Int
  dx : Int
  dy : Int
  sx : Int
  sy : Int
  err : Int
deriving DecidableEq, Repr

/-- `trunc(v / 2)`: rounds towards zero (R7, R90 b). -/
def truncHalf (v : Int) : Int := v.tdiv 2

/-- The registers for a start point and an end point with the start's x the smaller: `DX`, `DY`, `SX`, `SY`, `ERR` (R90). -/
def lineRegs (x y x2 y2 : Int) : LineRegs :=
  let dx := x2 - x
  let dy := |y2 - y|
  { x := x, y := y, x2 := x2, y2 := y2, dx := dx, dy := dy, sx := 1, sy := if y < y2 then 1 else -1,
    err := if dx > dy then truncHalf dx else truncHalf (-dy) }

/-- The set-up of the Bresenham path: end points swapped, x and y together, if the first has the larger x (R90). -/
def lineSetup (x1 y1 x2 y2 : Int) : LineRegs :=
  if x1 > x2 then lineRegs x2 y2 x1 y1 else lineRegs x1 y1 x2 y2

/-- The end point has been reached: `X = X2 and Y = Y2` (R90). -/
def LineRegs.atEnd (r : LineRegs) : Bool := decide (r.x = r.x2) && decide (r.y = r.y2)

/-- The x half of the decision rule: `if E2 > −DX then ERR <- ERR − DY ; X <- X + SX` (R90). -/
def LineRegs.stepX (e2 : Int) (r : LineRegs) : LineRegs :=
  if e2 > -r.dx then { r with err := r.err - r.dy, x := r.x + r.sx } else r

/-- The y half of the decision rule: `if E2 < DY then ERR <- ERR + DX ; Y <- Y + SY` (R90). -/
def LineRegs.stepY (e2 : Int) (r : LineRegs) : LineRegs :=
  if e2 < r.dy then { r with err := r.err + r.dx, y := r.y + r.sy } else r

/-- One iteration's update: both tests use `E2`, the old `ERR` (R90). -/
def LineRegs.advance (r : LineRegs) : LineRegs := (r.stepX r.err).stepY r.err

/-- The registers at each iteration's `Pixel`, first to last: the loop of R90, at most `n` iterations (log entry 14). -/
def lineTrail : Nat → LineRegs → List LineRegs
  | 0, _ => []
  | n + 1, r => r :: (if r.atEnd then [] else lineTrail n r.advance)

/-- The Bresenham path's iterations for a line's operands. -/
def bresenham (x1 y1 x2 y2 : Byte) : List LineRegs :=
  lineTrail Config.lineFuel (lineSetup (coord x1) (coord y1) (coord x2) (coord y2))

/-- The events of DRAWLINE: the horizontal path first, then the vertical, then Bresenham (R86, R87, R88, R90). -/
def lineEvents (x1 y1 x2 y2 : Byte) (color : Color) : List Event :=
  if y1 = y2 then fill (min (coord x1) (coord x2)) (coord y1) ((coord x2 - coord x1).natAbs + 1) 1 color
  else if x1 = x2 then fill (coord x1) (min (coord y1) (coord y2)) 1 ((coord y2 - coord y1).natAbs + 1) color
  else (bresenham x1 y1 x2 y2).flatMap (fun r => pixel r.x r.y color)

/-- DRAWPIXEL (R85). -/
def execDrawpixel (x y : Byte) (color : Color) (s : State) : Host.Outcome State Fault Refusal :=
  .next (s.complete (bus (pixel (coord x) (coord y) color)))

/-- DRAWLINE (R86). -/
def execDrawline (x1 y1 x2 y2 : Byte) (color : Color) (s : State) : Host.Outcome State Fault Refusal :=
  .next (s.complete (bus (lineEvents x1 y1 x2 y2 color)))

end Sys2Proof.Machine
end

