-- ==== Sys2Proof/Machine/Text.lean ====
section
/-! DEFINITION. The text family (43_text_renderer.md): DRAWSTRING over the scratch registers of 10_state.md R17. -/

namespace Sys2Proof.Machine

/-- What a part of DRAWSTRING leaves: the scratch registers after it and the actions it performed. -/
structure Drawn where
  regs : Scratch
  acts : List Action
deriving DecidableEq, Repr

/-- One 1 × 8 window at `(X, Y)` and its eight colours (R95). -/
def columnStream (r : Scratch) (cs : List Color) : List Event :=
  emitWindow (coord r.x) (coord r.y) 1 Config.glyphRows ++ stream cs

/-- One glyph column: its bitmask is read, its window set at `X`, `X` advanced, its colours streamed (R94, R95). -/
def drawColumn (m : Memory) (col : Byte) (r : Scratch) : Drawn :=
  { regs := { r with col := col, bits := m.fontRead (columnAddr r.gb col), x := r.x + 1 },
    acts := .read .font (columnAddr r.gb col).toNat ::
      bus (columnStream r (columnColors r.fg r.bg (m.fontRead (columnAddr r.gb col)))) }

/-- `n` glyph columns from column `col` on: `for COL in 0 .. GW − 1` (R94). -/
def drawColumns (m : Memory) : Nat → Byte → Scratch → Drawn
  | 0, _, r => { regs := r, acts := [] }
  | n + 1, col, r =>
    let d := drawColumn m col r
    let rest := drawColumns m n (col + 1) d.regs
    { regs := rest.regs, acts := d.acts ++ rest.acts }

/-- The spacing column: eight background pairs at `X`, and `X` advances past it (R96). -/
def drawSpacing (r : Scratch) : Drawn :=
  { regs := { r with x := r.x + 1 },
    acts := bus (columnStream r (List.replicate Config.glyphRows r.bg)) }

/-- `Glyph(ch)`: `GB` and `GW` (R93). -/
def fetchGlyph (m : Memory) (ch : Byte) (r : Scratch) : Drawn :=
  { regs := { r with ch := ch, ptr := r.ptr + 1, gb := glyphBase ch, gw := m.fontRead (glyphBase ch) },
    acts := [.read .font (glyphBase ch).toNat] }

/-- A character other than the terminator, after its code has been read: its width, its columns, its spacing column
(R94). The width is not compared with 5 (R93, R98). -/
def drawChar (m : Memory) (ch : Byte) (r : Scratch) : Drawn :=
  let g := fetchGlyph m ch r
  let cs := drawColumns m g.regs.gw.toNat 0 g.regs
  let sp := drawSpacing cs.regs
  { regs := sp.regs, acts := g.acts ++ cs.acts ++ sp.acts }

/-- What some passes of DRAWSTRING's loop leave: registers, actions, and whether the terminator was met (R97). -/
structure TextRun where
  regs : Scratch
  acts : List Action
  ended : Bool
deriving DecidableEq, Repr

/-- At most `n` passes of the loop of R94, from `PTR` on. -/
def drawChars (m : Memory) : Nat → Scratch → TextRun
  | 0, r => { regs := r, acts := [], ended := false }
  | n + 1, r =>
    if m.textRead r.ptr = Config.textEnd then
      { regs := { r with ch := Config.textEnd }, acts := [.read .text r.ptr.toNat], ended := true }
    else
      let d := drawChar m (m.textRead r.ptr) r
      let rest := drawChars m n d.regs
      { regs := rest.regs, acts := .read .text r.ptr.toNat :: (d.acts ++ rest.acts), ended := rest.ended }

/-- Go on with DRAWSTRING from the scratch registers, once round `TEXT` at most: every string with a terminator ends in
this; one with none is left in progress, `busy` up, to go on from the same registers (R97; log entry 2). -/
def State.runString (s : State) (r : Scratch) : State :=
  let run := drawChars s.mem (Config.spaceSize .text) r
  if run.ended then s.complete run.acts
  else { s.perform run.acts with busy := true, scratch := run.regs }

/-- DRAWSTRING (R94): `X <- a ; Y <- b ; FG <- fg ; BG <- bg ; PTR <- ptr`, then the loop. -/
def execDrawstring (x y : Byte) (color background : Color) (ptr : Addr) (s : State) : Host.Outcome State Fault Refusal :=
  .next (s.runString { s.scratch with x := x, y := y, fg := color, bg := background, ptr := ptr })

end Sys2Proof.Machine
end

