-- ==== Sys2Proof/Machine/Dispatch.lean ====
section
/-! DEFINITION. One arm per command: the operation of a command word (00_scope.md R10). -/

namespace Sys2Proof.Machine

def exec (i : Instr) (s : State) : Host.Outcome State Fault Refusal :=
  match i with
  | .setwindow x y width height => Sys2Proof.Machine.execSetwindow x y width height s
  | .setcontrast contrast => Sys2Proof.Machine.execSetcontrast contrast s
  | .setlcdon on => Sys2Proof.Machine.execSetlcdon on s
  | .inversescreen inverse => Sys2Proof.Machine.execInversescreen inverse s
  | .setstartline line => Sys2Proof.Machine.execSetstartline line s
  | .setinverselines y height mode => Sys2Proof.Machine.execSetinverselines y height mode s
  | .drawpixel x y color => Sys2Proof.Machine.execDrawpixel x y color s
  | .drawline x1 y1 x2 y2 color => Sys2Proof.Machine.execDrawline x1 y1 x2 y2 color s
  | .fillrect x y width height color => Sys2Proof.Machine.execFillrect x y width height color s
  | .drawrect x y width height color => Sys2Proof.Machine.execDrawrect x y width height color s
  | .clear color => Sys2Proof.Machine.execClear color s
  | .drawbitmapb x y width height ptr => Sys2Proof.Machine.execDrawbitmapb x y width height ptr s
  | .drawbitmapt x y width height ptr => Sys2Proof.Machine.execDrawbitmapt x y width height ptr s
  | .drawstring x y color background ptr => Sys2Proof.Machine.execDrawstring x y color background ptr s

end Sys2Proof.Machine
end

