-- ==== Sys2Proof/Machine/Step.lean ====
section
/-! DEFINITION. One step: an idle LGE takes the next command word and runs its operation (10_state.md R16, R20); a busy
one goes on with the operation in progress. -/

namespace Sys2Proof.Machine

/-- What an idle LGE does with a command word: the command's operation, or the illegal-command condition (R50). -/
def takeWord (w : CmdWord) (s : State) : Host.Outcome State Fault Refusal :=
  match decode w with
  | .ok i => exec i s
  | .error _ => .next s.takeIllegal

/-- One step. While `busy` no word is taken (R16); the operation in progress is DRAWSTRING, the only one that can be left
in progress (R97). Idle with no word presented, the LGE stays as it is: the end of a run (R20, R130). -/
def step (s : State) : Host.Outcome State Fault Refusal :=
  if s.busy then .next (s.runString s.scratch)
  else
    match s.fetchWord with
    | none => .next s
    | some w => takeWord w s

/-- `s` with a row's word as the next command word the host presents, and idle, so that the very next step takes it. -/
def State.withFetchWord (s : State) (nbits w : Nat) : State :=
  { s with busy := false, prog := placeWord (wordOfTable nbits w) s.k s.prog }

end Sys2Proof.Machine
end

