-- ==== Sys2Proof/Machine/Assembler.lean ====
section
/-! DEFINITION. The assembler syntax (30_encoding.md R55 to R58): one command a line, its mnemonic and its operands, to a
command word; the named constants; DRAWSTRING with a quoted string. A line it cannot read has no word (log entry 18). -/

namespace Sys2Proof.Machine

/-- The parts of a line. -/
inductive Token where
  | word (cs : List Char)
  | comma
  | str (cs : List Char)
deriving DecidableEq, Repr

/-- A word read so far (its letters reversed) as a token. -/
def wordToken (cur : List Char) : List Token := if cur = [] then [] else [.word cur.reverse]

/-- The tokens of a line: `cur` is the word or string read so far, reversed, and `quoted` says which. A `;` outside a
string starts a comment (R55). -/
def tokens (cur : List Char) (quoted : Bool) : List Char → Option (List Token)
  | [] => if quoted then none else some (wordToken cur)
  | c :: cs =>
    if quoted then
      if c = '"' then (tokens [] false cs).map (.str cur.reverse :: ·) else tokens (c :: cur) true cs
    else if c = ';' then some (wordToken cur)
    else if c = ',' then (tokens [] false cs).map (fun ts => wordToken cur ++ .comma :: ts)
    else if c = '"' then (tokens [] true cs).map (fun ts => wordToken cur ++ ts)
    else if c = ' ' ∨ c = '\t' then (tokens [] false cs).map (fun ts => wordToken cur ++ ts)
    else tokens (c :: cur) false cs

/-- The value of a digit in the given base. -/
def digit (base : Nat) (c : Char) : Option Nat :=
  let n := c.toNat
  let v := if 48 ≤ n ∧ n ≤ 57 then n - 48 else if 65 ≤ n ∧ n ≤ 70 then n - 55 else if 97 ≤ n ∧ n ≤ 102 then n - 87 else base
  if v < base then some v else none

/-- A number in the given base, `acc` being the value of the digits before. -/
def digits (base acc : Nat) : List Char → Option Nat
  | [] => some acc
  | c :: cs => (digit base c).bind (fun v => digits base (acc * base + v) cs)

/-- The named constants of R57. -/
def namedConstants : List (String × Nat) :=
  [("BLACK", 0x000), ("BLUE", 0x00F), ("GREEN", 0x0F0), ("CYAN", 0x0FF), ("RED", 0xF00), ("PINK", 0xF0F), ("YELLOW", 0xFF0),
   ("WHITE", 0xFFF), ("OFF", 0), ("ON", 1), ("BLINK", 3), ("FALSE", 0), ("TRUE", 1)]

/-- The constant of a name. -/
def lookupConstant (cs : List Char) : List (String × Nat) → Option Nat
  | [] => none
  | (name, v) :: rest => if cs = name.toList then some v else lookupConstant cs rest

/-- A number: a name, `0x` and hexadecimal digits, or decimal digits (R55). -/
def number (cs : List Char) : Option Nat :=
  match lookupConstant cs namedConstants with
  | some v => some v
  | none =>
    match cs with
    | [] => none
    | '0' :: 'x' :: d :: rest => digits 16 0 (d :: rest)
    | d :: rest => digits 10 0 (d :: rest)

/-- An operand: a number, or the quoted string of R58. -/
inductive AsmOperand where
  | num (n : Nat)
  | str (cs : List Char)
deriving DecidableEq, Repr

/-- The operand a token stands for. -/
def operandOf : Token → Option AsmOperand
  | .word cs => (number cs).map .num
  | .str cs => some (.str cs)
  | .comma => none

/-- Operands separated by commas (R55). -/
def operands : List Token → Option (List AsmOperand)
  | [] => some []
  | [t] => (operandOf t).map (fun o => [o])
  | t :: .comma :: u :: rest => (operandOf t).bind (fun o => (operands (u :: rest)).map (o :: ·))
  | _ => none

/-- A number as an operand of `w` bits, if it fits. -/
def fit (w n : Nat) : Option (BitVec w) := if n < 2 ^ w then some (BitVec.ofNat w n) else none

/-- A number as a Boolean operand (R57). -/
def fitBool (n : Nat) : Option Bool := if n = 0 then some false else if n = 1 then some true else none

/-- Four coordinates. -/
def fit4 (a b c d : Nat) : Option (Byte × Byte × Byte × Byte) := do
  let a ← fit 8 a
  let b ← fit 8 b
  let c ← fit 8 c
  let d ← fit 8 d
  pure (a, b, c, d)

/-- The command of a mnemonic and its operands, in the order of R47's columns. -/
def commandOf (m : List Char) (ops : List AsmOperand) : Option Instr :=
  match ops with
  | [.num a] =>
    if m = "SETCONTRAST".toList then (fit 8 a).map .setcontrast
    else if m = "SETLCDON".toList then (fitBool a).map .setlcdon
    else if m = "INVERSESCREEN".toList then (fitBool a).map .inversescreen
    else if m = "SETSTARTLINE".toList then (fit 8 a).map .setstartline
    else if m = "CLEAR".toList then (fit 16 a).map .clear
    else none
  | [.num a, .num b, .num c] =>
    if m = "SETINVERSELINES".toList then do return .setinverselines (← fit 8 a) (← fit 8 b) (← fit 2 c)
    else if m = "DRAWPIXEL".toList then do return .drawpixel (← fit 8 a) (← fit 8 b) (← fit 16 c)
    else none
  | [.num a, .num b, .num c, .num d] =>
    if m = "SETWINDOW".toList then (fit4 a b c d).map (fun (a, b, c, d) => .setwindow a b c d) else none
  | [.num a, .num b, .num c, .num d, .num e] => do
    let e ← fit 16 e
    if m = "DRAWSTRING".toList then return .drawstring (← fit 8 a) (← fit 8 b) (← fit 16 c) (← fit 16 d) e
    else
      let (a, b, c, d) ← fit4 a b c d
      if m = "DRAWLINE".toList then some (.drawline a b c d e)
      else if m = "FILLRECT".toList then some (.fillrect a b c d e)
      else if m = "DRAWRECT".toList then some (.drawrect a b c d e)
      else if m = "DRAWBITMAPB".toList then some (.drawbitmapb a b c d e)
      else if m = "DRAWBITMAPT".toList then some (.drawbitmapt a b c d e)
      else none
  | _ => none

/-- What the assembler builds besides words: the `TEXT` image and its first free address (R58). -/
structure AsmImage where
  text : Cells 8
  free : Nat
deriving DecidableEq, Repr

/-- Place bytes from an address on. -/
def placeBytes (m : Cells 8) (a : Nat) : List Byte → Cells 8
  | [] => m
  | b :: bs => placeBytes (writeCell m a b) (a + 1) bs

/-- The bytes of a string, one per character, if each is a code from 1 to 255. -/
def stringBytes : List Char → Option (List Byte)
  | [] => some []
  | c :: cs => if 0 < c.toNat ∧ c.toNat < 256 then (stringBytes cs).map (BitVec.ofNat 8 c.toNat :: ·) else none

/-- Place a string and its terminator at the first free address (R58): the image after, and the address. -/
def placeString (img : AsmImage) (cs : List Char) : Option (AsmImage × Nat) := do
  let bs ← stringBytes cs
  if img.free + bs.length < Config.spaceSize .text then
    some ({ text := placeBytes img.text img.free (bs ++ [Config.textEnd]), free := img.free + bs.length + 1 }, img.free)
  else none

/-- One line (R55, R58): the image after it and its word, if it is not empty. -/
def assembleLine (img : AsmImage) (line : List Char) : Option (AsmImage × Option CmdWord) := do
  match (← tokens [] false line) with
  | [] => return (img, none)
  | .word m :: rest =>
    match (← operands rest) with
    | [.num a, .num b, .num c, .num d, .str cs] =>
      let (img', p) ← placeString img cs
      let i ← commandOf m [.num a, .num b, .num c, .num d, .num p]
      if m = "DRAWSTRING".toList then return (img', some (encode i)) else none
    | ops => return (img, some (encode (← commandOf m ops)))
  | _ => none

/-- A program, one command a line: its words and the `TEXT` image it needs. -/
def assemble (img : AsmImage) : List (List Char) → Option (AsmImage × List CmdWord)
  | [] => some (img, [])
  | line :: lines => do
    let (img', w) ← assembleLine img line
    let (img'', ws) ← assemble img' lines
    return (img'', w.toList ++ ws)

end Sys2Proof.Machine
end

