-- ==== Sys2Proof/Machine/Boot.lean ====
section
/-! DEFINITION. The display controller's bring-up (70_reset_and_hazards.md R118), as the host performs it: a record of what
the host does, no operation of the LGE (00_scope.md R4 b). Its tables are open (R119). -/

namespace Sys2Proof.Machine

/-- One thing the host does in the bring-up. -/
inductive BootAction where
  /-- Step 1: the three lines become outputs. -/
  | configureOutputs
  /-- `RST(v)`: the controller's reset line, no line of the LGE (R14). -/
  | rst (v : Bool)
  /-- `WAIT(t)`, at least `ms` milliseconds. -/
  | wait (ms : Nat)
  /-- An event on the LGE's bus. -/
  | bus (e : Event)
deriving DecidableEq, Repr

/-- The command word of step 13, `SETCONTRAST DEFAULT_CONTRAST`, as a command. -/
def bootContrast : Instr := .setcontrast (Config.defaultContrast.setWidth 8)

/-- Steps 1 to 12 (R118). -/
def bringUp : List BootAction :=
  [.configureOutputs, .bus (.ce false), .rst false, .bus (.rs .data), .rst true, .wait 10, .rst false, .wait 10,
    .bus (.rs .command), .bus (.ce true)] ++
  Config.bringupTable.toList.map (fun b => .bus (.tx b)) ++
  [.bus (.ce false), .wait 1, .bus (.ce true), .wait 1] ++
  Config.configTable.toList.map (fun b => .bus (.tx b)) ++
  [.bus (.ce false), .bus (.rs .data)]

/-- Steps 13 and 14: the contrast command's session (R79), then the last wait. -/
def bringUpEnd : List BootAction :=
  (cmdSession [0xF4, tagged 0xB (hi (Config.defaultContrast.setWidth 8)), tagged 0xA (lo (Config.defaultContrast.setWidth 8))]).map
    .bus ++ [.wait 100]

/-- The bus events of a bring-up. -/
def bootEvents : List BootAction → List Event
  | [] => []
  | .bus e :: rest => e :: bootEvents rest
  | .configureOutputs :: rest => bootEvents rest
  | .rst _ :: rest => bootEvents rest
  | .wait _ :: rest => bootEvents rest

/-- The time a bring-up takes at least, in milliseconds (R118, R128). -/
def bootMillis : List BootAction → Nat
  | [] => 0
  | .wait ms :: rest => ms + bootMillis rest
  | .bus _ :: rest => bootMillis rest
  | .configureOutputs :: rest => bootMillis rest
  | .rst _ :: rest => bootMillis rest

end Sys2Proof.Machine
end

