-- ==== Sys2Proof/Machine/HostPort.lean ====
section
/-! DEFINITION. What the host can do to the LGE (70_reset_and_hazards.md R130), as functions over State. Each move is made
between steps, that is, between operations, but for `resetDuring`. -/

namespace Sys2Proof.Machine

/-- Present a command word: it waits its turn; the LGE takes it when it is not busy (R16). -/
def State.presentWord (s : State) (w : CmdWord) : State := { s with prog := s.prog ++ [w] }

/-- Write a byte of `TEXT` (R39, R130). -/
def State.hostWriteText (s : State) (a : Addr) (v : Byte) : State :=
  { s with mem := { s.mem with text := writeCell s.mem.text a.toNat v } }

/-- Write a word of `PIXBUF` (R39, R130). `PIXTAB` keeps its words: the memories are disjoint, the model's choice (R35; log
entry 22). -/
def State.hostWritePixbuf (s : State) (a : Addr) (v : Color) : State :=
  { s with mem := { s.mem with pixbuf := writeCell s.mem.pixbuf a.toNat v } }

/-- Load a byte of `FONT` (R130). -/
def State.hostLoadFont (s : State) (a : FontAddr) (v : Byte) : State :=
  { s with mem := { s.mem with font := writeCell s.mem.font a.toNat v } }

/-- Load a word of `PIXTAB` (R130); `PIXBUF` keeps its words (log entry 22). -/
def State.hostLoadPixtab (s : State) (a : Addr) (v : Color) : State :=
  { s with mem := { s.mem with pixtab := writeCell s.mem.pixtab a.toNat v } }

/-- The line writes of a reset: each line that is not at its reset value goes to it, `CE(0)` before `RS(D)` (R116; log
entry 11). -/
def resetEvents (ce : Bool) (rs : RsMode) : List Event :=
  (if ce then [.ce false] else []) ++ (if rs = .command then [.rs .data] else [])

/-- The host asserts and releases the LGE's reset input (R116): the state of R23. The memories and the words to present are
the host's and stay; the trace so far stands (R117). -/
def State.assertReset (s : State) : State :=
  { s.perform (bus (resetEvents s.ce s.rs)) with
    busy := false, ill := false, k := 0,
    scratch := Config.freeScratch s.freeNext, freeNext := s.freeNext + 1 }

/-- The actions a step adds to the log. -/
def stepActions (s : State) : List Action :=
  match step s with
  | .next t => t.log.drop s.log.length
  | .fault _ => []
  | .refused _ => []

/-- Reset in the middle of the next step, after `n` of its actions: those stand, the rest never happens (R117). -/
def State.resetDuring (s : State) (n : Nat) : State := (s.perform ((stepActions s).take n)).assertReset

/-- The end of a run: every word has been taken and the LGE is idle (R20). -/
def State.runEnded (s : State) : Bool := decide (s.k = s.prog.length) && !s.busy

/-- What a run is observed by: the whole trace, `STATUS.ill` and the command index (R130). -/
structure Observation where
  trace : List Event
  ill : Bool
  k : Nat
deriving DecidableEq, Repr

/-- The observation of a state (R130). -/
def State.observe (s : State) : Observation := { trace := s.trace, ill := s.ill, k := s.k }

/-- The level opposite to a given one. -/
def Level.flip : Level → Level
  | .low => .high
  | .high => .low

/-- The electrical level of the chip-enable line (R12, `CE_ASSERT_LEVEL`). -/
def State.cePin (s : State) : Level := if s.ce then Config.ceAssertLevel else Level.flip Config.ceAssertLevel

/-- The electrical level of the register-select line (R13, `RS_COMMAND_LEVEL`). -/
def State.rsPin (s : State) : Level :=
  match s.rs with
  | .command => Config.rsCommandLevel
  | .data => Level.flip Config.rsCommandLevel

end Sys2Proof.Machine
end

