-- ==== Sys2Proof/Machine/View.lean ====
section
/-! DEFINITION. What a trace means in pixels (20_memory.md R41, R42, R44): the reference sink. It is no state of the LGE (R22);
it is the tool the spec gives for stating what an operation draws. R41 gives a view to an operation and the rectangles it
passes to `EmitWindow`, which the bytes of its trace carry only modulo 256 (log entry 15). `Machine/Controller.lean` follows
the sink over the steps of a run. -/

namespace Sys2Proof.Machine

/-- A session: the register-select mode it was opened in and its bytes (glossary of 00_scope.md). -/
structure Session where
  mode : RsMode
  bytes : List Byte
deriving DecidableEq, Repr

/-- The closed sessions of a trace, with register-select at `rs` and `cur` the session open so far. -/
def sessionsFrom (rs : RsMode) (cur : Option Session) : List Event → List Session
  | [] => []
  | .rs m :: es => sessionsFrom m cur es
  | .ce true :: es => sessionsFrom rs (some ⟨rs, []⟩) es
  | .ce false :: es =>
    match cur with
    | none => sessionsFrom rs none es
    | some x => x :: sessionsFrom rs none es
  | .tx b :: es =>
    match cur with
    | none => sessionsFrom rs none es
    | some x => sessionsFrom rs (some ⟨x.mode, x.bytes ++ [b]⟩) es

/-- The sessions of a trace that starts idle. -/
def sessions (es : List Event) : List Session := sessionsFrom .data none es

/-- A rectangle that `EmitWindow` is given, before any reduction modulo 256 (R70). -/
structure Window where
  x : Nat
  y : Nat
  width : Nat
  height : Nat
deriving DecidableEq, Repr

/-- The window invariant (R41, R121). -/
def Window.ok (r : Window) : Bool := windowOk r.x r.y r.width r.height

/-- The byte whose halves two parameter bytes carry, if they carry the given tags (R60). -/
def joinSplit (tagLo tagHi : Nibble) (bLo bHi : Byte) : Option Nat :=
  if hi bLo = tagLo ∧ hi bHi = tagHi then some ((lo bHi).toNat * 16 + (lo bLo).toNat) else none

/-- The window whose start and end columns and rows R70 gives, if there is a window of the screen with these. -/
def windowOf (xs ys xe ye : Nat) : Option Window :=
  if 6 ≤ xs ∧ xs % 2 = 0 ∧ xe % 2 = 1 ∧ xs < xe ∧ xe ≤ 207 ∧ ys ≤ ye ∧ ye ≤ 79 then
    some { x := (xs - 6) / 2, y := ys, width := (xe - 7) / 2 + 1 - (xs - 6) / 2, height := ye + 1 - ys }
  else none

/-- A command session that is a window command: ten bytes with the group bytes of R61. -/
def isWindowCommand (bytes : List Byte) : Bool :=
  decide (bytes.length = 10) && decide (bytes[0]? = some 0xF0) && decide (bytes[5]? = some 0xF5)

/-- The window a window command sets (R61), if it is one of the screen (R41). -/
def parseWindow : List Byte → Option Window
  | [_, b1, b2, b3, b4, _, b6, b7, b8, b9] => do
    let xs ← joinSplit 0 1 b1 b2
    let ys ← joinSplit 2 3 b3 b4
    let xe ← joinSplit 0 1 b6 b7
    let ye ← joinSplit 2 3 b8 b9
    windowOf xs ys xe ye
  | _ => none

/-- The 12-bit colours of a data session (R44), if it holds whole pairs. -/
def pairColors : List Byte → Option (List (BitVec 12))
  | [] => some []
  | [_] => none
  | b1 :: b2 :: rest => (pairColors rest).map (pairColor b1 b2 :: ·)

/-- One pixel written. -/
structure PixelWrite where
  x : Nat
  y : Nat
  color : BitVec 12
deriving DecidableEq, Repr

/-- The writes of colours `cs` into a window, the first being pair `k`: row-major order (R41). -/
def fillWindow (win : Window) : Nat → List (BitVec 12) → List PixelWrite
  | _, [] => []
  | k, c :: cs => { x := win.x + k % win.width, y := win.y + k / win.width, color := c } :: fillWindow win (k + 1) cs

/-- The colour some writes leave at a pixel: "A later write to the same pixel replaces an earlier one" (R41). -/
def colorAt (x y : Nat) (ws : List PixelWrite) : Option (BitVec 12) :=
  ws.foldl (fun c p => if p.x = x ∧ p.y = y then some p.color else c) none

/-- What R41 and R42 give a model of the controller: the window as last set, which stays until the next window command (R42
a); whether a data session may still fill it (`fresh`: R41 speaks of the one data session that follows a window, and R42 b
says that no window is crossed without resetting it); and the pixels written, in order. -/
structure Sink where
  window : Option Window
  fresh : Bool
  writes : List PixelWrite
deriving DecidableEq, Repr

/-- A controller that has been brought up and has been sent no window. -/
def Sink.start : Sink := { window := none, fresh := false, writes := [] }

/-- What some sessions do to the sink, `rects` being the rectangles their window commands were made from, in order. A data
session fills the window (R41) and leaves it set (R42 a); a command session of another kind changes nothing of the sink.
There is no answer where R41 gives no view: a rectangle that breaks the window invariant, a lone byte, more pairs than the
window holds, or a data session that does not follow a window command (log entry 15). -/
def Sink.receive (rects : List Window) (k : Sink) : List Session → Option Sink
  | [] => some k
  | ⟨.command, bytes⟩ :: rest =>
    if isWindowCommand bytes then
      match rects with
      | [] => none
      | r :: more =>
        if r.ok && decide (parseWindow bytes = some r) then
          Sink.receive more { k with window := some r, fresh := true } rest
        else none
    else Sink.receive rects k rest
  | ⟨.data, bytes⟩ :: rest =>
    match k.window, pairColors bytes with
    | some r, some cs =>
      if k.fresh && decide (cs.length ≤ r.width * r.height) then
        Sink.receive rects { k with fresh := false, writes := k.writes ++ fillWindow r 0 cs } rest
      else none
    | _, _ => none

/-! ### Strings -/

/-- The string at `ptr`: its codes up to the terminator, which is met within `n` reads (R29). -/
def stringAt (m : Memory) : Nat → Addr → Option (List Byte)
  | 0, _ => none
  | n + 1, a => if m.textRead a = Config.textEnd then some [] else (stringAt m n (a + 1)).map (m.textRead a :: ·)

/-- The string at `ptr`, if `TEXT` holds a terminator at all (R97). -/
def textString (m : Memory) (ptr : Addr) : Option (List Byte) := stringAt m (Config.spaceSize .text) ptr

/-- The width byte of a character's glyph (R27, R93). -/
def glyphWidth (m : Memory) (c : Byte) : Nat := (m.fontRead (glyphBase c)).toNat

/-- The columns of one character: its glyph's bitmasks, then `none` for the spacing column (R96). -/
def charColumns (m : Memory) (c : Byte) : List (Option Byte) :=
  (List.range (glyphWidth m c)).map (fun j => some (m.fontRead (columnAddr (glyphBase c) (BitVec.ofNat 8 j)))) ++ [none]

/-- The columns of a string, left to right (R94, R99). -/
def stringColumns (m : Memory) (cs : List Byte) : List (Option Byte) := cs.flatMap (charColumns m)

/-- The host's duties for a string, R122 b to d: codes with a glyph record, widths the font allows, and room on the
screen for every column. (a) is that `textString` answers, (e) is in `Instr.wellFormed`. DESIGN CHOICE: how many records the
font holds is not stated (R26), and every code from 32 to 255 is taken to have one (log entry 24). -/
def stringOk (m : Memory) (x : Byte) (cs : List Byte) : Bool :=
  cs.all (fun c => decide (Config.firstChar ≤ c.toNat) && decide (glyphWidth m c ≤ Config.glyphMaxW)) &&
    decide (x.toNat + (stringColumns m cs).length ≤ Config.screenW)

/-! ### The duties that depend on memory, and the windows of a command -/

/-- The `n` pixel words from `ptr` on are legal colours, their high four bits zero (R126, R30). -/
def pixelsOk (m : Memory) (src : PixSource) (ptr : Addr) (n : Nat) : Bool :=
  (List.range n).all (fun i => colorOk (m.pixRead src (ptr + BitVec.ofNat 16 i)))

/-- All the host's duties for a command's operands and for what it reads (R121, R122, R126). -/
def dutiesOk (m : Memory) (i : Instr) : Bool :=
  i.wellFormed &&
    match i with
    | .drawbitmapb _ _ width height ptr => pixelsOk m .pixbuf ptr (width.toNat * height.toNat)
    | .drawbitmapt _ _ width height ptr => pixelsOk m .pixtab ptr (width.toNat * height.toNat)
    | .drawstring x _ _ _ ptr =>
      match textString m ptr with
      | some cs => stringOk m x cs
      | none => false
    | .setwindow _ _ _ _ | .setcontrast _ | .setlcdon _ | .inversescreen _ | .setstartline _ | .setinverselines _ _ _
    | .drawpixel _ _ _ | .drawline _ _ _ _ _ | .fillrect _ _ _ _ _ | .drawrect _ _ _ _ _ | .clear _ => true

/-- The rectangles a command passes to `EmitWindow`, in order (R78 to R105). A string with no terminator passes infinitely
many, and leaves the screen (R97, U6): it has no view, and none are listed. DESIGN CHOICE: the codes and glyph widths of a
string are not asked for (R122 b, c), so one that breaks these alone has its windows listed like any other (log entry 26). -/
def windowsOf (m : Memory) : Instr → List Window
  | .setwindow x y width height => [⟨x.toNat, y.toNat, width.toNat, height.toNat⟩]
  | .setcontrast _ | .setlcdon _ | .inversescreen _ | .setstartline _ | .setinverselines _ _ _ => []
  | .drawpixel x y _ => [⟨x.toNat, y.toNat, 1, 1⟩]
  | .drawline x1 y1 x2 y2 _ =>
    if y1 = y2 then [⟨min x1.toNat x2.toNat, y1.toNat, (coord x2 - coord x1).natAbs + 1, 1⟩]
    else if x1 = x2 then [⟨x1.toNat, min y1.toNat y2.toNat, 1, (coord y2 - coord y1).natAbs + 1⟩]
    else (bresenham x1 y1 x2 y2).map (fun r => ⟨r.x.toNat, r.y.toNat, 1, 1⟩)
  | .fillrect x y width height _ => [⟨x.toNat, y.toNat, width.toNat, height.toNat⟩]
  | .drawrect x y width height _ =>
    [⟨x.toNat, y.toNat, width.toNat, 1⟩, ⟨x.toNat, (mod256 (coord y + coord height - 1)).toNat, width.toNat, 1⟩,
     ⟨x.toNat, y.toNat, 1, height.toNat⟩, ⟨(mod256 (coord x + coord width - 1)).toNat, y.toNat, 1, height.toNat⟩]
  | .clear _ => [⟨0, 0, Config.screenW, Config.screenH⟩]
  | .drawbitmapb x y width height _ => [⟨x.toNat, y.toNat, width.toNat, height.toNat⟩]
  | .drawbitmapt x y width height _ => [⟨x.toNat, y.toNat, width.toNat, height.toNat⟩]
  | .drawstring x y _ _ ptr =>
    match textString m ptr with
    | some cs => (List.range (stringColumns m cs).length).map (fun i => ⟨(x.toNat + i) % 256, y.toNat, 1, Config.glyphRows⟩)
    | none => []

/-- The pixel-write view of the trace `es` of the command `i` (R41). DESIGN CHOICE: it is given wherever R41's own conditions
hold, also to a string on the screen with a code below 32 or a glyph width above 5, whose picture R108 calls undefined (log
entry 26). -/
def pixelView (m : Memory) (i : Instr) (es : List Event) : Option (List PixelWrite) :=
  (Sink.receive (windowsOf m i) Sink.start (sessions es)).map (·.writes)

/-- The 12-bit colour of a 16-bit one: `c[11:0]` (R41). -/
def color12 (c : Color) : BitVec 12 := c.extractLsb' 0 12

end Sys2Proof.Machine
end

