-- ==== Sys2Proof/Machine/Controller.lean ====
section
/-! DEFINITION. The reference sink of `Machine/View.lean` over the steps of a run (20_memory.md R41, R42; 10_state.md R22). The
controller stands outside the LGE and no step reads it: these are functions of the state the LGE is in. Once the spec says
nothing of the controller's state there is no answer for the rest of the run (log entry 25). -/

namespace Sys2Proof.Machine

/-- The command a step takes, if it takes a legal one (R16). -/
def State.nextInstr (s : State) : Option Instr :=
  if s.busy then none
  else
    match s.fetchWord with
    | none => none
    | some w =>
      match decode w with
      | .ok i => some i
      | .error _ => none

/-- The controller's reaction to a command is not undefined for a reserved operand value (R126, U2). -/
def reactionOk : Instr → Bool
  | .setcontrast contrast => contrastOk contrast
  | .setstartline line => startLineOk line
  | .setinverselines y height mode => rowsOk y.toNat height.toNat && modeOk mode
  | .setwindow _ _ _ _ | .setlcdon _ | .inversescreen _ | .drawpixel _ _ _ | .drawline _ _ _ _ _ | .fillrect _ _ _ _ _
  | .drawrect _ _ _ _ _ | .clear _ | .drawbitmapb _ _ _ _ _ | .drawbitmapt _ _ _ _ _ | .drawstring _ _ _ _ _ => true

/-- The sink after the events `es` of the step from `s`. A reserved operand value matters only once a session has carried it:
with none sent the controller has heard nothing and is as it was (R23, R126). A string that goes on from an earlier step has
no view (R97). DESIGN CHOICE: a string that breaks R122 (b) or (c) alone is heard like any other, where R108 calls the effect
on the controller undefined (log entry 26). -/
def Sink.hear (k : Sink) (s : State) (es : List Event) : Option Sink :=
  match s.nextInstr with
  | some i => if reactionOk i || (sessions es).isEmpty then k.receive (windowsOf s.mem i) (sessions es) else none
  | none => k.receive [] (sessions es)

/-- The sink after the step from `s` (R41, R42 a). -/
def Sink.afterStep (k : Sink) (s : State) : Option Sink := k.hear s (eventsOf (stepActions s))

/-- A reset after `n` actions of the step from `s` closes a session in its middle: chip-enable is asserted, and the session's
next event would not have been its close (R42 c, R117). -/
def midBurst (s : State) (n : Nat) : Bool :=
  ceAfter s.ce (eventsOf ((stepActions s).take n)) &&
    decide ((eventsOf ((stepActions s).drop n)).head? ≠ some (.ce false))

/-- The sink after a reset in the middle of the step from `s`: a cut burst corrupts the controller's state (R42 c, U8), and
otherwise what had been sent stands (R117); the reset itself does not change the controller (R23). -/
def Sink.afterResetDuring (k : Sink) (s : State) (n : Nat) : Option Sink :=
  if midBurst s n then none else k.hear s (eventsOf ((s.resetDuring n).log.drop s.log.length))

/-- The sink after `n` steps from `s`: the window and the writes persist from operation to operation (R42 a). -/
def Sink.afterSteps (k : Sink) (s : State) : Nat → Option Sink
  | 0 => some k
  | n + 1 =>
    match step s with
    | .next t => (k.afterStep s).bind (fun k' => k'.afterSteps t n)
    | .fault _ => none
    | .refused _ => none

end Sys2Proof.Machine
end

