-- ==== Sys2Proof/Safety.lean ====
section
/-! DEFINITION. What the statements say of a state and of an operation: a legal trace (20_memory.md R40, R77), a safe state,
and what completing an operation leaves and keeps. -/

namespace Sys2Proof.Machine

/-- A legal trace from lines at `ce` and `rs`: `CE(1)` and `CE(0)` alternate strictly (R77), `RS` changes only while
`CE = 0`, and `TX` is emitted only while `CE = 1` (R40). -/
def busLegal (ce : Bool) (rs : RsMode) : List Event → Bool
  | [] => true
  | .ce v :: es => (v != ce) && busLegal v rs es
  | .rs m :: es => !ce && busLegal ce m es
  | .tx _ :: es => ce && busLegal ce rs es

/-- A safe state: the lines are at their idle values, the whole trace is legal and ends with the lines where they stand,
the memories are in canonical form, and the command index lies in the program, inside it while an operation is in
progress. -/
structure Safe (s : State) : Prop where
  ceIdle : s.ce = false
  rsIdle : s.rs = .data
  legal : busLegal false .data s.trace = true
  ceTrace : ceAfter false s.trace = s.ce
  rsTrace : rsAfter .data s.trace = s.rs
  memory : s.mem.wf = true
  index : s.k ≤ s.prog.length
  inProgress : s.busy = true → s.k < s.prog.length

/-- What no operation changes: `ill`, the memories and the words presented. -/
structure Keeps (s t : State) : Prop where
  ill : t.ill = s.ill
  mem : t.mem = s.mem
  prog : t.prog = s.prog

/-- From `s` an operation that emitted `es` and read `rds` has completed and left `t`: the trace and the reads are
extended by exactly these, the LGE is idle, the command index is one more, and nothing else has changed but the scratch
registers, of which R18 says nothing. -/
structure Completed (s t : State) (es : List Event) (rds : List (Space × Nat)) : Prop where
  trace : t.trace = s.trace ++ es
  reads : t.reads = s.reads ++ rds
  idle : t.Idle
  k : t.k = s.k + 1
  keeps : Keeps s t

/-- `TX` of bytes given as numbers. -/
def txs (bytes : List Nat) : List Event := bytes.map (fun b => .tx (BitVec.ofNat 8 b))

/-- A command burst of bytes given as numbers, as R67 writes it. -/
def commandBurst (bytes : List Nat) : List Event := [.rs .command, .ce true] ++ txs bytes ++ [.ce false, .rs .data]

/-- A data burst of bytes given as numbers, as R68 writes it. -/
def dataBurst (bytes : List Nat) : List Event := [.ce true] ++ txs bytes ++ [.ce false]

/-- The ten bytes of a window command for start and end columns and rows given as numbers below 256, as R61 writes them. -/
def windowNumbers (xs ys xe ye : Nat) : List Nat :=
  [0xF0, xs % 16, 0x10 + xs / 16, 0x20 + ys % 16, 0x30 + ys / 16,
   0xF5, xe % 16, 0x10 + xe / 16, 0x20 + ye % 16, 0x30 + ye / 16]

/-- The window command of a rectangle, all four values reduced modulo 256 (R70, R75). -/
def windowBurst (x y w h : Nat) : List Event :=
  commandBurst (windowNumbers ((2 * x + 6) % 256) (y % 256) ((2 * (x + w) + 5) % 256) ((y + h + 255) % 256))

/-- The two bytes of a colour as numbers (R65). -/
def pairNumbers (c : Nat) : List Nat := [c / 256, c % 256]

/-- A window and one data session of the given colours. -/
def windowFilled (x y w h : Nat) (colors : List Nat) : List Event :=
  windowBurst x y w h ++ dataBurst (colors.flatMap pairNumbers)

/-- How many bytes a trace sends. -/
def txCount (es : List Event) : Nat := (es.filter (fun e => match e with | .tx _ => true | .ce _ => false | .rs _ => false)).length

/-- The events a step adds to the trace. -/
def newEvents (s t : State) : List Event := t.trace.drop s.trace.length

/-! ### Lines -/

/-- The pixels of the Bresenham path, in the order they are drawn (R90). -/
def linePoints (x1 y1 x2 y2 : Byte) : List (Int × Int) := (bresenham x1 y1 x2 y2).map (fun r => (r.x, r.y))

/-- One iteration with the error held as an exact half: `err` is twice the error (R92). -/
def LineRegs.advanceExact (r : LineRegs) : LineRegs :=
  let r1 := if r.err > -(2 * r.dx) then { r with err := r.err - 2 * r.dy, x := r.x + r.sx } else r
  if r.err < 2 * r.dy then { r1 with err := r1.err + 2 * r.dx, y := r1.y + r.sy } else r1

/-- The loop of R90 with an exact half as error term (R92). -/
def exactTrail : Nat → LineRegs → List LineRegs
  | 0, _ => []
  | n + 1, r => r :: (if r.atEnd then [] else exactTrail n r.advanceExact)

/-- The pixels of the Bresenham path with the exact rational `DX / 2` or `−DY / 2` as the initial error (R92). -/
def exactPoints (x1 y1 x2 y2 : Byte) : List (Int × Int) :=
  let r := lineSetup (coord x1) (coord y1) (coord x2) (coord y2)
  (exactTrail Config.lineFuel { r with err := if r.dx > r.dy then r.dx else -r.dy }).map (fun r => (r.x, r.y))

/-- The trace of pixels drawn one by one (R84). -/
def pointEvents (color : Color) (pts : List (Nat × Nat)) : List Event :=
  pts.flatMap (fun p => windowFilled p.1 p.2 1 1 [color.toNat])

/-! ### Strings -/

/-- The eight colours of a column, top to bottom: a bitmask's, most significant bit first, or a spacing column's (R95, R96). -/
def columnPixels (fg bg : Color) : Option Byte → List Color
  | some bits => (List.range 8).map (fun k => if bits.toNat.testBit (7 - k) then fg else bg)
  | none => List.replicate 8 bg

/-- The trace of a string's columns: column `i` is a 1 × 8 window at `(x + i) mod 256` (R94 to R96). -/
def columnsEvents (x y : Byte) (fg bg : Color) (cols : List (Option Byte)) : List Event :=
  cols.zipIdx.flatMap (fun p => windowFilled ((x.toNat + p.2) % 256) y.toNat 1 8 ((columnPixels fg bg p.1).map (·.toNat)))

/-- The reads of a string: each code, its width byte, its bitmasks; at last the terminator (R93, R94, R97). -/
def stringReads (m : Memory) (a : Addr) : List Byte → List (Space × Nat)
  | [] => [(.text, a.toNat)]
  | c :: cs =>
    (.text, a.toNat) :: (.font, (glyphBase c).toNat) ::
      ((List.range (glyphWidth m c)).map (fun j => (.font, (columnAddr (glyphBase c) (BitVec.ofNat 8 j)).toNat)) ++
        stringReads m (a + 1) cs)

/-- A string's reads and events in one order: its code, its width, then for each column the bitmask, the window and the
stream, then the spacing column; at last the terminator (R94, R96, R97). `x` is where its first column stands. -/
def stringActions (m : Memory) (y : Byte) (fg bg : Color) (a : Addr) (x : Nat) : List Byte → List Action
  | [] => [.read .text a.toNat]
  | c :: cs =>
    .read .text a.toNat :: .read .font (glyphBase c).toNat ::
      ((List.range (glyphWidth m c)).flatMap (fun j =>
          let colAddr := columnAddr (glyphBase c) (BitVec.ofNat 8 j)
          .read .font colAddr.toNat ::
            bus (windowFilled ((x + j) % 256) y.toNat 1 8 ((columnPixels fg bg (some (m.fontRead colAddr))).map (·.toNat)))) ++
        bus (windowFilled ((x + glyphWidth m c) % 256) y.toNat 1 8 ((columnPixels fg bg none).map (·.toNat))) ++
        stringActions m y fg bg (a + 1) (x + glyphWidth m c + 1) cs)

/-! ### Bitmaps -/

/-- A blit's reads and events in one order: the window, then in one data session each word's read at once before its two
bytes (R105, which asks only that the read comes before them; where it stands is log entry 10's choice). -/
def blitActions (sp : Space) (m : Cells 16) (x y w h : Nat) (ptr : Nat) : List Action :=
  bus (windowBurst x y w h ++ [.ce true]) ++
    (List.range (w * h)).flatMap (fun i =>
      .read sp ((ptr + i) % 65536) :: bus (txs (pairNumbers (readCell m ((ptr + i) % 65536)).toNat))) ++
    bus [.ce false]

/-! ### Sessions -/

/-- Each data session carries whole colour pairs and follows a window command's session at once (R124, R125). -/
def dataFollowsWindow : List Session → Bool
  | [] => true
  | ⟨.command, b⟩ :: ⟨.data, d⟩ :: rest => isWindowCommand b && decide (d.length % 2 = 0) && dataFollowsWindow rest
  | ⟨.command, _⟩ :: rest => dataFollowsWindow rest
  | ⟨.data, _⟩ :: _ => false

/-- How many bytes an operation sends, as R129 counts them. -/
def byteCost (m : Memory) : Instr → Option Nat
  | .setwindow _ _ _ _ => some 10
  | .setcontrast _ => some 3
  | .setlcdon _ => some 2
  | .inversescreen _ => some 2
  | .setstartline _ => some 3
  | .setinverselines _ _ _ => some 8
  | .drawpixel _ _ _ => some 12
  | .drawline x1 y1 x2 y2 _ =>
    let dx := (coord x2 - coord x1).natAbs
    let dy := (coord y2 - coord y1).natAbs
    if y1 = y2 then some (10 + 2 * (dx + 1)) else if x1 = x2 then some (10 + 2 * (dy + 1)) else some (12 * (max dx dy + 1))
  | .fillrect _ _ width height _ => some (10 + 2 * width.toNat * height.toNat)
  | .drawrect _ _ width height _ => some (40 + 4 * (width.toNat + height.toNat))
  | .clear _ => some 16170
  | .drawbitmapb _ _ width height _ => some (10 + 2 * width.toNat * height.toNat)
  | .drawbitmapt _ _ width height _ => some (10 + 2 * width.toNat * height.toNat)
  | .drawstring _ _ _ _ ptr => (textString m ptr).map (fun cs => 26 * (stringColumns m cs).length)

end Sys2Proof.Machine
end

