-- ==== Sys2Proof/Certificates/Slice0/Obligations.lean ====
section
/-! DEFINITION. The statements for the provers: what the rules of spec/ say the LGE does. OBLIGATIONS.json lists them. -/

open Sys2Proof Sys2Proof.Machine

/-! ### Encoding -/

/-- Decoding the word of any command gives the command back, with every operand at every value (R46, R47, R48). -/
def Obligations.DecodeOfEncode : Prop := ∀ i : Instr, decode (encode i) = .ok i

/-- Encoding what a word decodes to gives the word back, its reserved fields and bits zero (R46 to R48, R51). -/
def Obligations.EncodeOfDecode : Prop :=
  ∀ (w : CmdWord) (i : Instr), decode w = .ok i → encode i = w &&& i.usedMask

/-- R51: reserved fields and bits have no effect on the trace or the state, and the assembler writes them as zero. -/
def Obligations.ReservedBitsIgnored : Prop :=
  (∀ (w v : CmdWord) (i : Instr), decode w = .ok i → v &&& i.usedMask = w &&& i.usedMask →
    decode v = .ok i ∧ ∀ s : State, takeWord v s = takeWord w s) ∧
  (∀ i : Instr, encode i &&& ~~~i.usedMask = 0)

/-- The decoder refuses exactly the words whose `op` is none of the fourteen opcodes, each by naming its opcode: a word with
one of the fourteen is never refused, and no word is refused otherwise (R49, R50). -/
def Obligations.IllegalWordsNamed : Prop :=
  ∀ w : CmdWord,
    ((opField w).toNat ∉ [0x01, 0x02, 0x03, 0x04, 0x05, 0x06, 0x10, 0x11, 0x12, 0x13, 0x14, 0x15, 0x16, 0x20] ↔
      decode w = .error (.illegalOpcode (opField w))) ∧
    ∀ e, decode w = .error e → e = .illegalOpcode (opField w)

/-- The serial form decodes as the word does, and the bytes after it are left (R45, R54). -/
def Obligations.SerialFormDecodes : Prop :=
  ∀ (w : CmdWord) (rest : List Byte),
    (∀ i, decode w = .ok i → decodeBytes (bytesOfWord w ++ rest) = .ok (i, rest)) ∧
    (∀ e, decode w = .error e → decodeBytes (bytesOfWord w ++ rest) = .error e)

/-- Words written out from R46 and R47 decode to what they stand for. -/
def Obligations.SampleWordsDecode : Prop :=
  decode 0x11000003020FFF00000000#88 = .ok (.drawline 0 0 3 2 0x0FFF) ∧
  decode 0x0610080300000000000000#88 = .ok (.setinverselines 16 8 3) ∧
  decode 0x1532280302000000000010#88 = .ok (.drawbitmapb 50 40 3 2 0x0010) ∧
  decode 0x205A4800000FF0000F0040#88 = .ok (.drawstring 90 72 0x0FF0 0x000F 0x0040)

/-! ### The step -/

/-- An idle LGE with a word presented that decodes to a command runs exactly that command (R16, R20). -/
def Obligations.StepRunsDecoded : Prop :=
  ∀ (s : State) (w : CmdWord) (i : Instr), s.busy = false → s.prog[s.k]? = some w → decode w = .ok i → step s = exec i s

/-- R50: an illegal opcode is taken like any other word, emits no event, reads no memory, sets `ill` and completes; the
lines are unchanged. The opcodes are R50's own list, and the all-zero word is among them. -/
def Obligations.IllegalOpcodeSetsIll : Prop :=
  (∀ (s : State) (w : CmdWord) (op : Nat), s.busy = false → s.prog[s.k]? = some w → op = (opField w).toNat →
    (op = 0 ∨ (0x07 ≤ op ∧ op ≤ 0x0F) ∨ (0x17 ≤ op ∧ op ≤ 0x1F) ∨ 0x21 ≤ op) →
    ∃ t, step s = .next t ∧ t.ill = true ∧ t.trace = s.trace ∧ t.reads = s.reads ∧ t.ce = s.ce ∧ t.rs = s.rs ∧
      t.busy = false ∧ t.k = s.k + 1 ∧ t.mem = s.mem ∧ t.prog = s.prog) ∧
  ((List.range 256).filter (fun op => op = 0 ∨ (0x07 ≤ op ∧ op ≤ 0x0F) ∨ (0x17 ≤ op ∧ op ≤ 0x1F) ∨ 0x21 ≤ op)).length = 242 ∧
  opField 0 = 0

/-- While busy no word is taken: a word presented then changes nothing of what the step does, and waits (R16). -/
def Obligations.BusyWordWaits : Prop :=
  ∀ (s : State) (w : CmdWord), s.busy = true →
    ∃ t, step s = .next t ∧ step (s.presentWord w) = .next (t.presentWord w) ∧ t.prog = s.prog

/-- Every step answers a next state: nothing stops the LGE (R106). -/
def Obligations.StepAlwaysGoesOn : Prop := ∀ s : State, ∃ t, step s = .next t

/-- The command index: a completed operation, legal or illegal, advances it by exactly 1; one still in progress does not
move it; and an idle LGE with no word presented stays as it is in every field (R20, R16, R109; log entry 1). -/
def Obligations.IndexAdvancesByOne : Prop :=
  (∀ s t : State, step s = .next t → s.busy = true ∨ s.prog[s.k]? ≠ none → t.k = if t.busy then s.k else s.k + 1) ∧
  (∀ s : State, s.busy = false → s.prog[s.k]? = none → step s = .next s)

/-- STATUS: bit 0 is `busy` and bit 1 is `ill`, in every state; `ill` is set exactly by taking an illegal word, and no
operation clears it (R15, R50). -/
def Obligations.IllSticky : Prop :=
  (∀ s : State, s.status.getLsbD 0 = s.busy ∧ s.status.getLsbD 1 = s.ill) ∧
  (∀ s t : State, step s = .next t →
    (t.ill = true ↔ s.ill = true ∨ (s.busy = false ∧ ∃ w e, s.prog[s.k]? = some w ∧ decode w = .error e)))

/-- No rule reads the value a scratch register had before an operation (R18): from two idle states that differ in nothing
but scratch registers and the model's own counter, runs of any length have the same trace, reads, `ill`, `busy` and index. -/
def Obligations.ScratchBeforeIsNeverRead : Prop :=
  ∀ (s : State) (r : Scratch) (c n : Nat) (t : State), s.busy = false → Host.Core.run Sys2Proof.core n s = .next t →
    ∃ u : State, Host.Core.run Sys2Proof.core n { s with scratch := r, freeNext := c } = .next u ∧ u.log = t.log ∧
      u.ce = t.ce ∧ u.rs = t.rs ∧ u.ill = t.ill ∧ u.busy = t.busy ∧ u.k = t.k ∧ u.mem = t.mem

/-- R31: no operation writes a memory, and no reset changes one. -/
def Obligations.MemoriesNeverWritten : Prop :=
  (∀ s t : State, step s = .next t → t.mem = s.mem) ∧ (∀ s : State, s.assertReset.mem = s.mem) ∧
  (∀ (s : State) (n : Nat), (s.resetDuring n).mem = s.mem)

/-- Who reads what (R25, R34): DRAWSTRING reads `TEXT` and `FONT` only, the blits their own space only, and no other
command reads memory. -/
def Obligations.ReadsByCommand : Prop :=
  ∀ (i : Instr) (s t : State), exec i s = .next t →
    ∃ rds, t.reads = s.reads ++ rds ∧
      match i with
      | .drawstring _ _ _ _ _ => ∀ p ∈ rds, p.1 = .text ∨ p.1 = .font
      | .drawbitmapb _ _ _ _ _ => ∀ p ∈ rds, p.1 = .pixbuf
      | .drawbitmapt _ _ _ _ _ => ∀ p ∈ rds, p.1 = .pixtab
      | .setwindow _ _ _ _ | .setcontrast _ | .setlcdon _ | .inversescreen _ | .setstartline _ | .setinverselines _ _ _
      | .drawpixel _ _ _ | .drawline _ _ _ _ _ | .fillrect _ _ _ _ _ | .drawrect _ _ _ _ _ | .clear _ => rds = []

/-! ### Safety of every step -/

/-- Every step of a safe state leaves a safe state: idle lines, a legal trace, canonical memories (R21, R40, R77). -/
def Obligations.StepKeepsSafe : Prop := ∀ s t : State, Safe s → step s = .next t → Safe t

/-- The reset state is safe. -/
def Obligations.ResetIsSafe : Prop := Safe State.reset

/-- Every move the host may make keeps a state safe, reset in the middle of an operation among them (R116, R117, R130). -/
def Obligations.HostMovesKeepSafe : Prop :=
  ∀ s : State, Safe s →
    (∀ w, Safe (s.presentWord w)) ∧ (∀ a v, Safe (s.hostWriteText a v)) ∧ (∀ a v, Safe (s.hostWritePixbuf a v)) ∧
    (∀ a v, Safe (s.hostLoadFont a v)) ∧ (∀ a v, Safe (s.hostLoadPixtab a v)) ∧ Safe s.assertReset ∧
    (∀ n, Safe (s.resetDuring n))

/-- Every data session a step emits carries whole colour pairs and follows at once a window command's session (R69, R124,
R125). -/
def Obligations.DataFollowsWindow : Prop :=
  ∀ s t : State, s.ce = false → s.rs = .data → step s = .next t → dataFollowsWindow (sessions (newEvents s t)) = true

/-- Every command session a step emits opens with one of the group bytes `0xF0`, `0xF4`, `0xF5` (R59, R63, R64). -/
def Obligations.CommandSessionsOpenWithGroupByte : Prop :=
  ∀ s t : State, s.ce = false → s.rs = .data → step s = .next t →
    ∀ x ∈ sessions (newEvents s t), x.mode = .command → x.bytes.head? ∈ [some 0xF0, some 0xF4, some 0xF5]

/-! ### The primitives and the command encoder -/

/-- R70: the window command of any rectangle of integers, reduced modulo 256; 14 events. -/
def Obligations.EmitWindowEncodesRectangle : Prop :=
  ∀ x y w h : Nat, emitWindow x y w h = windowBurst x y w h ∧ (emitWindow x y w h).length = 14

/-- SETWINDOW completes with the window command of its rectangle and nothing else; under the window invariant its bytes name
that rectangle (R78, R61). -/
def Obligations.SetwindowCompletes : Prop :=
  ∀ (s : State) (x y width height : Byte),
    (∃ t, exec (.setwindow x y width height) s = .next t ∧
      Completed s t (windowBurst x.toNat y.toNat width.toNat height.toNat) []) ∧
    (windowOk x.toNat y.toNat width.toNat height.toNat = true →
      ∃ bytes, sessions (windowBurst x.toNat y.toNat width.toNat height.toNat) = [⟨.command, bytes⟩] ∧
        parseWindow bytes = some ⟨x.toNat, y.toNat, width.toNat, height.toNat⟩)

/-- SETCONTRAST completes with its three bytes, the high nibble first (R79). -/
def Obligations.SetcontrastCompletes : Prop :=
  ∀ (s : State) (v : Byte), ∃ t, exec (.setcontrast v) s = .next t ∧
    Completed s t (commandBurst [0xF4, 0xB0 + v.toNat / 16, 0xA0 + v.toNat % 16]) []

/-- SETLCDON completes with `0x81` for on and `0x80` for off; only bit 0 of `a` is read (R80). -/
def Obligations.SetlcdonCompletes : Prop :=
  (∀ (s : State) (on : Bool), ∃ t, exec (.setlcdon on) s = .next t ∧
    Completed s t (commandBurst [0xF0, if on then 0x81 else 0x80]) []) ∧
  (∀ w : CmdWord, opField w = 0x03 → decode w = .ok (.setlcdon (decide ((aField w).toNat % 2 = 1))))

/-- INVERSESCREEN completes with `0x99` for inverted and `0x91` for normal, whatever was sent before (R81). -/
def Obligations.InversescreenCompletes : Prop :=
  (∀ (s : State) (inverse : Bool), ∃ t, exec (.inversescreen inverse) s = .next t ∧
    Completed s t (commandBurst [0xF0, if inverse then 0x99 else 0x91]) []) ∧
  (∀ w : CmdWord, opField w = 0x04 → decode w = .ok (.inversescreen (decide ((aField w).toNat % 2 = 1))))

/-- SETSTARTLINE completes with its three bytes, the low nibble first (R82). -/
def Obligations.SetstartlineCompletes : Prop :=
  ∀ (s : State) (v : Byte), ∃ t, exec (.setstartline v) s = .next t ∧
    Completed s t (commandBurst [0xF0, 0x40 + v.toNat % 16, 0x50 + v.toNat / 16]) []

/-- SETINVERSELINES completes with its eight bytes, for every choice of the five open tags (R83). -/
def Obligations.SetinverselinesCompletes : Prop :=
  ∀ (s : State) (y height : Byte) (mode : BitVec 2), ∃ t, exec (.setinverselines y height mode) s = .next t ∧
    Completed s t (commandBurst
      [0xF5, 16 * Config.ilTagYsLo.toNat + y.toNat % 16, 16 * Config.ilTagYsHi.toNat + y.toNat / 16,
       0xF5, 16 * Config.ilTagYeLo.toNat + (y.toNat + height.toNat + 255) % 256 % 16,
       16 * Config.ilTagYeHi.toNat + (y.toNat + height.toNat + 255) % 256 / 16,
       0xF5, 16 * Config.ilTagMode.toNat + mode.toNat]) []

/-- R66: the pair of a legal colour decodes to the colour, the named constants among them. -/
def Obligations.ColorRoundTrip : Prop :=
  (∀ c : Color, c.extractLsb' 12 4 = 0 → (pairColor (colorHi c) (colorLo c)).toNat = c.toNat) ∧
  [0x000, 0x00F, 0x0F0, 0x0FF, 0xF00, 0xF0F, 0xFF0, 0xFFF].map (fun c => (pair (BitVec.ofNat 16 c)).map (·.toNat)) =
    [[0x00, 0x00], [0x00, 0x0F], [0x00, 0xF0], [0x00, 0xFF], [0x0F, 0x00], [0x0F, 0x0F], [0x0F, 0xF0], [0x0F, 0xFF]]

/-! ### Pixels and lines -/

/-- DRAWPIXEL completes with one 1 × 1 window and one colour pair (R85, R84). -/
def Obligations.DrawpixelCompletes : Prop :=
  ∀ (s : State) (x y : Byte) (color : Color), ∃ t, exec (.drawpixel x y color) s = .next t ∧
    Completed s t (windowFilled x.toNat y.toNat 1 1 [color.toNat]) []

/-- R87: a line with equal y is one window and one stream of `|x2 − x1| + 1` pairs from the smaller x, up to 256; a single
point is DRAWPIXEL. -/
def Obligations.HorizontalLineCompletes : Prop :=
  ∀ (s : State) (x1 y x2 : Byte) (color : Color),
    (∃ t, exec (.drawline x1 y x2 y color) s = .next t ∧
      Completed s t
        (windowFilled (min x1.toNat x2.toNat) y.toNat (max x1.toNat x2.toNat - min x1.toNat x2.toNat + 1) 1
          (List.replicate (max x1.toNat x2.toNat - min x1.toNat x2.toNat + 1) color.toNat)) []) ∧
    exec (.drawline x1 y x1 y color) s = exec (.drawpixel x1 y color) s

/-- R88: a line with equal x and different y is one window and one stream of `|y2 − y1| + 1` pairs from the smaller y. -/
def Obligations.VerticalLineCompletes : Prop :=
  ∀ (s : State) (x y1 y2 : Byte) (color : Color), y1 ≠ y2 →
    ∃ t, exec (.drawline x y1 x y2 color) s = .next t ∧
      Completed s t
        (windowFilled x.toNat (min y1.toNat y2.toNat) 1 (max y1.toNat y2.toNat - min y1.toNat y2.toNat + 1)
          (List.replicate (max y1.toNat y2.toNat - min y1.toNat y2.toNat + 1) color.toNat)) []

/-- The Bresenham path completes: pixels one by one, `max(DX, DY) + 1` of them, from the end point with the smaller x to the
other, each beside the one before, x never decreasing, y in one direction, all in the bounding box (R90, R91 a, b, d, h). -/
def Obligations.BresenhamLineCompletes : Prop :=
  ∀ (s : State) (x1 y1 x2 y2 : Byte) (color : Color), y1 ≠ y2 → x1 ≠ x2 →
    ∃ (t : State) (pts : List (Nat × Nat)),
      exec (.drawline x1 y1 x2 y2 color) s = .next t ∧ Completed s t (pointEvents color pts) [] ∧
      pts.length = max (max x1.toNat x2.toNat - min x1.toNat x2.toNat) (max y1.toNat y2.toNat - min y1.toNat y2.toNat) + 1 ∧
      (pts.head?, pts.getLast?) =
        (if x1.toNat < x2.toNat then (some (x1.toNat, y1.toNat), some (x2.toNat, y2.toNat))
          else (some (x2.toNat, y2.toNat), some (x1.toNat, y1.toNat))) ∧
      List.IsChain (fun p q : Nat × Nat => (q.1 = p.1 ∨ q.1 = p.1 + 1) ∧ q ≠ p ∧
        (q.2 = p.2 ∨ if (x1.toNat < x2.toNat ↔ y1.toNat < y2.toNat) then q.2 = p.2 + 1 else p.2 = q.2 + 1)) pts ∧
      ∀ p ∈ pts, min x1.toNat x2.toNat ≤ p.1 ∧ p.1 ≤ max x1.toNat x2.toNat ∧ min y1.toNat y2.toNat ≤ p.2 ∧
        p.2 ≤ max y1.toNat y2.toNat

/-- The registers of the Bresenham path: `DX` and `DY` are 1 to 255; `ERR` at every pixel lies in −254 to 254, and after
the first of an iteration's two updates it still fits the 10 bits of the register; `X` and `Y` never leave the closed ranges
between the end points (R89). That R89's "every update" means the end of an iteration, where both tests are done, is the
model's choice (log entry 17). -/
def Obligations.BresenhamRegisterRanges : Prop :=
  ∀ x1 y1 x2 y2 : Byte, y1 ≠ y2 → x1 ≠ x2 → ∀ r ∈ bresenham x1 y1 x2 y2,
    (1 ≤ r.dx ∧ r.dx ≤ 255) ∧ (1 ≤ r.dy ∧ r.dy ≤ 255) ∧ (-254 ≤ r.err ∧ r.err ≤ 254) ∧
      (-512 ≤ (r.stepX r.err).err ∧ (r.stepX r.err).err ≤ 511) ∧
      (min (coord x1) (coord x2) ≤ r.x ∧ r.x ≤ max (coord x1) (coord x2)) ∧
      (min (coord y1) (coord y2) ≤ r.y ∧ r.y ≤ max (coord y1) (coord y2))

/-- Every column of a line with `DX > DY`, and every row of one with `DX ≤ DY`, is visited exactly once, in order (R91 c). -/
def Obligations.BresenhamSkipsNothing : Prop :=
  ∀ x1 y1 x2 y2 : Byte, y1 ≠ y2 → x1 ≠ x2 →
    let r := lineSetup (coord x1) (coord y1) (coord x2) (coord y2)
    if r.dx > r.dy then
      (linePoints x1 y1 x2 y2).map (·.1) = (List.range (r.dx.toNat + 1)).map (fun i : Nat => r.x + i)
    else (linePoints x1 y1 x2 y2).map (·.2) = (List.range (r.dy.toNat + 1)).map (fun i : Nat => r.y + r.sy * i)

/-- Every pixel is within half a pixel of the ideal line, along the minor axis (R91 e). -/
def Obligations.BresenhamWithinHalfPixel : Prop :=
  ∀ x1 y1 x2 y2 : Byte, y1 ≠ y2 → x1 ≠ x2 →
    let r := lineSetup (coord x1) (coord y1) (coord x2) (coord y2)
    ∀ p ∈ linePoints x1 y1 x2 y2,
      if r.dx > r.dy then 2 * |(|p.2 - r.y|) * r.dx - (p.1 - r.x) * r.dy| ≤ r.dx
      else 2 * |(p.1 - r.x) * r.dy - (|p.2 - r.y|) * r.dx| ≤ r.dy

/-- The line downwards and the line upwards are mirror images in y (R91 f). -/
def Obligations.BresenhamMirror : Prop :=
  ∀ (n : Nat) (x y dx dy : Int), 0 < dx → 0 < dy →
    (lineTrail n (lineRegs x y (x + dx) (y - dy))).map (fun r => (r.x, r.y)) =
      (lineTrail n (lineRegs x y (x + dx) (y + dy))).map (fun r => (r.x, 2 * y - r.y))

/-- A line drawn from either end point does the same, event for event, on every path (R91 g, R87, R88). -/
def Obligations.DrawlineEndpointsSwap : Prop :=
  ∀ (s : State) (x1 y1 x2 y2 : Byte) (color : Color),
    exec (.drawline x1 y1 x2 y2 color) s = exec (.drawline x2 y2 x1 y1 color) s

/-- The exact-half error term draws the same pixels as the truncated integer (R92). -/
def Obligations.BresenhamMatchesExactHalf : Prop :=
  ∀ x1 y1 x2 y2 : Byte, y1 ≠ y2 → x1 ≠ x2 → exactPoints x1 y1 x2 y2 = linePoints x1 y1 x2 y2

/-! ### Fills and blits -/

/-- FILLRECT completes with one window and `width × height` pairs, none for a zero size (R100, R72 to R74). -/
def Obligations.FillrectCompletes : Prop :=
  ∀ (s : State) (x y width height : Byte) (color : Color), ∃ t, exec (.fillrect x y width height color) s = .next t ∧
    Completed s t (windowFilled x.toNat y.toNat width.toNat height.toNat
      (List.replicate (width.toNat * height.toNat) color.toNat)) []

/-- CLEAR completes with the window of the whole screen and 8080 pairs; 16176 events, 16170 bytes (R101). -/
def Obligations.ClearCompletes : Prop :=
  ∀ (s : State) (color : Color), ∃ t es, exec (.clear color) s = .next t ∧ Completed s t es [] ∧
    es = commandBurst [0xF0, 0x06, 0x10, 0x20, 0x30, 0xF5, 0x0F, 0x1C, 0x2F, 0x34] ++
      dataBurst ((List.replicate 8080 color.toNat).flatMap pairNumbers) ∧
    es.length = 16176 ∧ txCount es = 16170

/-- DRAWRECT completes with its four passes in order: top row, bottom row, left column, right column (R102). -/
def Obligations.DrawrectCompletes : Prop :=
  ∀ (s : State) (x y width height : Byte) (color : Color), ∃ t, exec (.drawrect x y width height color) s = .next t ∧
    Completed s t
      (windowFilled x.toNat y.toNat width.toNat 1 (List.replicate width.toNat color.toNat) ++
       windowFilled x.toNat ((y.toNat + height.toNat + 255) % 256) width.toNat 1 (List.replicate width.toNat color.toNat) ++
       windowFilled x.toNat y.toNat 1 height.toNat (List.replicate height.toNat color.toNat) ++
       windowFilled ((x.toNat + width.toNat + 255) % 256) y.toNat 1 height.toNat (List.replicate height.toNat color.toNat)) []

/-- DRAWBITMAPB completes with one window and the words of `PIXBUF` from `ptr` on, each read once, in address order,
modulo 65536, each before its two bytes are sent (R103, R105). That a word is read right before its bytes, inside the data
session, is the model's choice (log entry 10). -/
def Obligations.DrawbitmapbCompletes : Prop :=
  ∀ (s : State) (x y width height : Byte) (ptr : Addr), ∃ t, exec (.drawbitmapb x y width height ptr) s = .next t ∧
    Completed s t
      (windowFilled x.toNat y.toNat width.toNat height.toNat ((List.range (width.toNat * height.toNat)).map
        (fun i => (readCell s.mem.pixbuf ((ptr.toNat + i) % 65536)).toNat)))
      ((List.range (width.toNat * height.toNat)).map (fun i => (.pixbuf, (ptr.toNat + i) % 65536))) ∧
    t.log = s.log ++ blitActions .pixbuf s.mem.pixbuf x.toNat y.toNat width.toNat height.toNat ptr.toNat

/-- DRAWBITMAPT completes with one window and the words of `PIXTAB` from `ptr` on, each read once, in address order, each
before its two bytes are sent (R104, R105). That a word is read right before its bytes, inside the data session, is the
model's choice (log entry 10). -/
def Obligations.DrawbitmaptCompletes : Prop :=
  ∀ (s : State) (x y width height : Byte) (ptr : Addr), ∃ t, exec (.drawbitmapt x y width height ptr) s = .next t ∧
    Completed s t
      (windowFilled x.toNat y.toNat width.toNat height.toNat ((List.range (width.toNat * height.toNat)).map
        (fun i => (readCell s.mem.pixtab ((ptr.toNat + i) % 65536)).toNat)))
      ((List.range (width.toNat * height.toNat)).map (fun i => (.pixtab, (ptr.toNat + i) % 65536))) ∧
    t.log = s.log ++ blitActions .pixtab s.mem.pixtab x.toNat y.toNat width.toNat height.toNat ptr.toNat

/-- The two bitmap commands, given identical pixel contents, emit the same trace (R105). -/
def Obligations.BitmapSourcesAgree : Prop :=
  ∀ (s : State) (x y width height : Byte) (ptr : Addr),
    (∀ i < width.toNat * height.toNat, s.mem.pixRead .pixbuf (ptr + BitVec.ofNat 16 i) =
      s.mem.pixRead .pixtab (ptr + BitVec.ofNat 16 i)) →
    ∃ t u, exec (.drawbitmapb x y width height ptr) s = .next t ∧ exec (.drawbitmapt x y width height ptr) s = .next u ∧
      t.trace = u.trace

/-! ### Text -/

/-- R28: the glyph base address, for codes from 32 and for codes 1 to 31. -/
def Obligations.GlyphBaseFormula : Prop :=
  ∀ c : Byte,
    (32 ≤ c.toNat → (glyphBase c).toNat = (c.toNat - 32) * 6 ∧ (c.toNat - 32) * 6 + 6 ≤ 1344) ∧
    (1 ≤ c.toNat ∧ c.toNat ≤ 31 → (glyphBase c).toNat = 2048 - (32 - c.toNat) * 6)

/-- DRAWSTRING of a terminated string completes: every column of every glyph and a spacing column after each, left to
right, and the reads of each code, width and bitmask in order; for any codes and widths; reads and events stand in the
order of R94: the code, its width, then for each column its bitmask, its window, its stream (R36, R93 to R98). -/
def Obligations.DrawstringCompletes : Prop :=
  ∀ (s : State) (x y : Byte) (color background : Color) (ptr : Addr) (cs : List Byte), s.Idle →
    textString s.mem ptr = some cs →
    ∃ t, exec (.drawstring x y color background ptr) s = .next t ∧
      Completed s t (columnsEvents x y color background (stringColumns s.mem cs)) (stringReads s.mem ptr cs) ∧
      t.log = s.log ++ stringActions s.mem y color background ptr x.toNat cs

/-- With no zero byte in `TEXT` the operation never completes: after any number of further steps `busy` is up and the
command index has not moved; a further step is another round of `TEXT`, the model's choice (R97; log entry 2). -/
def Obligations.UnterminatedStringNeverEnds : Prop :=
  ∀ (s : State) (x y : Byte) (color background : Color) (ptr : Addr), (∀ a : Addr, readCell s.mem.text a.toNat ≠ 0) →
    ∃ t : State, exec (.drawstring x y color background ptr) s = .next t ∧
      ∀ n : Nat, ∃ u : State, Host.Core.run Sys2Proof.core n t = .next u ∧ u.busy = true ∧ u.k = s.k

/-- A string is found exactly when `TEXT` holds a zero byte anywhere (R29, R97). -/
def Obligations.TerminatorDecides : Prop :=
  ∀ (m : Memory) (ptr : Addr), (∃ cs, textString m ptr = some cs) ↔ ∃ a : Addr, readCell m.text a.toNat = 0

/-- Events, bytes and reads of a string of `n` characters whose widths sum to `m`: 32 and 26 for each of `m + n` columns,
`n + 1` text reads and `n + m` font reads (R99). -/
def Obligations.DrawstringCounts : Prop :=
  ∀ (s : State) (x y : Byte) (color background : Color) (ptr : Addr) (cs : List Byte), s.Idle →
    textString s.mem ptr = some cs →
    ∃ t es rds, exec (.drawstring x y color background ptr) s = .next t ∧ Completed s t es rds ∧
      es.length = 32 * ((cs.map (glyphWidth s.mem)).sum + cs.length) ∧
      txCount es = 26 * ((cs.map (glyphWidth s.mem)).sum + cs.length) ∧
      (rds.filter (fun p => p.1 = .text)).length = cs.length + 1 ∧
      (rds.filter (fun p => p.1 = .font)).length = cs.length + (cs.map (glyphWidth s.mem)).sum

/-! ### The picture -/

/-- FILLRECT of a rectangle of the screen writes every pixel of it once, in row-major order, and has no view when its
rectangle breaks the window invariant; CLEAR writes every pixel of the screen; DRAWPIXEL writes its one pixel, and has no
view for a pixel off the screen (R100, R72, R101, R85, R41). -/
def Obligations.FillrectPicture : Prop :=
  (∀ (s : State) (x y width height : Byte) (color : Color),
    ∃ t es, exec (.fillrect x y width height color) s = .next t ∧ t.trace = s.trace ++ es ∧
      pixelView s.mem (.fillrect x y width height color) es =
        if windowOk x.toNat y.toNat width.toNat height.toNat = true then
          some ((List.range (width.toNat * height.toNat)).map
            (fun i => ⟨x.toNat + i % width.toNat, y.toNat + i / width.toNat, color12 color⟩))
        else none) ∧
  (∀ (s : State) (color : Color),
    ∃ t es, exec (.clear color) s = .next t ∧ t.trace = s.trace ++ es ∧
      pixelView s.mem (.clear color) es = some ((List.range 8080).map (fun i => ⟨i % 101, i / 101, color12 color⟩))) ∧
  (∀ (s : State) (x y : Byte) (color : Color),
    ∃ t es, exec (.drawpixel x y color) s = .next t ∧ t.trace = s.trace ++ es ∧
      pixelView s.mem (.drawpixel x y color) es =
        if pixelOk x.toNat y.toNat = true then some [⟨x.toNat, y.toNat, color12 color⟩] else none)

/-- DRAWLINE between points of the screen writes exactly the pixels of its path, in order (R86 to R91, R41). -/
def Obligations.DrawlinePicture : Prop :=
  ∀ (s : State) (x1 y1 x2 y2 : Byte) (color : Color), pixelOk x1.toNat y1.toNat = true → pixelOk x2.toNat y2.toNat = true →
    ∃ t es, exec (.drawline x1 y1 x2 y2 color) s = .next t ∧ t.trace = s.trace ++ es ∧
      pixelView s.mem (.drawline x1 y1 x2 y2 color) es = some (
        if y1 = y2 then (List.range (max x1.toNat x2.toNat - min x1.toNat x2.toNat + 1)).map
          (fun i => ⟨min x1.toNat x2.toNat + i, y1.toNat, color12 color⟩)
        else if x1 = x2 then (List.range (max y1.toNat y2.toNat - min y1.toNat y2.toNat + 1)).map
          (fun i => ⟨x1.toNat, min y1.toNat y2.toNat + i, color12 color⟩)
        else (linePoints x1 y1 x2 y2).map (fun p => ⟨p.1.toNat, p.2.toNat, color12 color⟩))

/-- DRAWRECT writes its rows and columns, the corners twice; a later write replaces an earlier one, so that the pixels of
the border, and no others, are left with the colour; and the controller's window is left at the right column, whatever it
was (R102, R41, R42 a, R124). -/
def Obligations.DrawrectPicture : Prop :=
  ∀ (s : State) (x y width height : Byte) (color : Color),
    windowOk x.toNat y.toNat width.toNat height.toNat = true →
    ∃ t es ws, exec (.drawrect x y width height color) s = .next t ∧ t.trace = s.trace ++ es ∧
      pixelView s.mem (.drawrect x y width height color) es = some ws ∧
      ws =
        (List.range width.toNat).map (fun i => ⟨x.toNat + i, y.toNat, color12 color⟩) ++
        (List.range width.toNat).map (fun i => ⟨x.toNat + i, y.toNat + height.toNat - 1, color12 color⟩) ++
        (List.range height.toNat).map (fun i => ⟨x.toNat, y.toNat + i, color12 color⟩) ++
        (List.range height.toNat).map (fun i => ⟨x.toNat + width.toNat - 1, y.toNat + i, color12 color⟩) ∧
      (∀ px py : Nat, colorAt px py ws =
        if (x.toNat ≤ px ∧ px < x.toNat + width.toNat ∧ (py = y.toNat ∨ py = y.toNat + height.toNat - 1)) ∨
            (y.toNat ≤ py ∧ py < y.toNat + height.toNat ∧ (px = x.toNat ∨ px = x.toNat + width.toNat - 1)) then
          some (color12 color)
        else none) ∧
      ∀ k : Sink, k.receive (windowsOf s.mem (.drawrect x y width height color)) (sessions es) =
        some ⟨some ⟨x.toNat + width.toNat - 1, y.toNat, 1, height.toNat⟩, false, k.writes ++ ws⟩

/-- A blit writes the word at `ptr + i` to the pixel `(x + i mod width, y + i div width)`, from either source; under the
host's duties for the bitmap's words a pixel's colour is the whole word (R105, R41, R126). -/
def Obligations.BitmapPicture : Prop :=
  ∀ (s : State) (x y width height : Byte) (ptr : Addr), windowOk x.toNat y.toNat width.toNat height.toNat = true →
    (∃ t es, exec (.drawbitmapb x y width height ptr) s = .next t ∧ t.trace = s.trace ++ es ∧
      pixelView s.mem (.drawbitmapb x y width height ptr) es = some ((List.range (width.toNat * height.toNat)).map
        (fun i => ⟨x.toNat + i % width.toNat, y.toNat + i / width.toNat,
          color12 (s.mem.pixRead .pixbuf (ptr + BitVec.ofNat 16 i))⟩))) ∧
    (∃ t es, exec (.drawbitmapt x y width height ptr) s = .next t ∧ t.trace = s.trace ++ es ∧
      pixelView s.mem (.drawbitmapt x y width height ptr) es = some ((List.range (width.toNat * height.toNat)).map
        (fun i => ⟨x.toNat + i % width.toNat, y.toNat + i / width.toNat,
          color12 (s.mem.pixRead .pixtab (ptr + BitVec.ofNat 16 i))⟩))) ∧
    (dutiesOk s.mem (.drawbitmapb x y width height ptr) = true → ∀ i < width.toNat * height.toNat,
      (color12 (s.mem.pixRead .pixbuf (ptr + BitVec.ofNat 16 i))).toNat =
        (s.mem.pixRead .pixbuf (ptr + BitVec.ofNat 16 i)).toNat) ∧
    (dutiesOk s.mem (.drawbitmapt x y width height ptr) = true → ∀ i < width.toNat * height.toNat,
      (color12 (s.mem.pixRead .pixtab (ptr + BitVec.ofNat 16 i))).toNat =
        (s.mem.pixRead .pixtab (ptr + BitVec.ofNat 16 i)).toNat)

/-- A string that fits the screen writes the rectangle of its columns completely, each pixel once, column by column from
the left, each from the top (R99, R95, R41). -/
def Obligations.DrawstringPicture : Prop :=
  ∀ (s : State) (x y : Byte) (color background : Color) (ptr : Addr) (cs : List Byte), s.Idle →
    textString s.mem ptr = some cs → stringOk s.mem x cs = true → y.toNat + 8 ≤ 80 →
    ∃ t es, exec (.drawstring x y color background ptr) s = .next t ∧ t.trace = s.trace ++ es ∧
      pixelView s.mem (.drawstring x y color background ptr) es = some ((stringColumns s.mem cs).zipIdx.flatMap (fun p =>
        (columnPixels color background p.1).zipIdx.map (fun q => ⟨x.toNat + p.2, y.toNat + q.2, color12 q.1⟩)))

/-! ### Costs, reset and the host -/

/-- R129: the bytes each operation sends. -/
def Obligations.ByteCosts : Prop :=
  ∀ (i : Instr) (s t : State) (n : Nat), s.Idle → byteCost s.mem i = some n → exec i s = .next t →
    ∃ es, t.trace = s.trace ++ es ∧ txCount es = n

/-- The state after reset, where the spec gives it (R23). -/
def Obligations.ResetValues : Prop :=
  State.reset.ce = false ∧ State.reset.rs = .data ∧ State.reset.busy = false ∧ State.reset.ill = false ∧
    State.reset.k = 0 ∧ State.reset.status = 0 ∧ State.reset.trace = []

/-- Asserting reset leaves the LGE idle with `ill` and `k` 0, emits no `TX`, and records only the line writes that a line
needs to reach its reset value, `CE(0)` before `RS(D)` (R116; per line is log entry 11's reading). -/
def Obligations.AssertResetIdles : Prop :=
  ∀ s : State, s.assertReset.Idle ∧ s.assertReset.ill = false ∧ s.assertReset.k = 0 ∧
    s.assertReset.trace = s.trace ++ (if s.ce then [.ce false] else []) ++ (if s.rs = .command then [.rs .data] else [])

/-- Reset after the first `n` actions of a step: the events among exactly those actions stand, a beginning of what the whole
step would have emitted; then come only the line writes that take the lines as those actions left them to their reset
values; the same actions' reads have been made; and the LGE is idle (R117, R116). That the cut falls between two actions is
the model's choice (log entry 12), and that a line already at its reset value is not written is log entry 11's. -/
def Obligations.ResetDuringCutsTrace : Prop :=
  ∀ (s t : State) (n : Nat), step s = .next t →
    t.log = s.log ++ stepActions s ∧
    (s.resetDuring n).Idle ∧ (s.resetDuring n).ill = false ∧ (s.resetDuring n).k = 0 ∧
    (s.resetDuring n).trace = s.trace ++ eventsOf ((stepActions s).take n) ++
      resetEvents (ceAfter s.ce (eventsOf ((stepActions s).take n))) (rsAfter s.rs (eventsOf ((stepActions s).take n))) ∧
    (s.resetDuring n).reads = s.reads ++ readsOf ((stepActions s).take n) ∧
    eventsOf ((stepActions s).take n) <+: newEvents s t ∧
    ∀ ce rs, txCount (resetEvents ce rs) = 0

/-- A write of the host is read back and changes no other address; the three other memories and every other field of the
state are as before (R39, R130). That a write to `PIXBUF` leaves `PIXTAB` alone, and the other way round, is the model's
choice: R35 leaves open whether they are one memory (log entry 22). -/
def Obligations.HostWritesReadBack : Prop :=
  (∀ s : State, s.mem.wf = true →
    (∀ (a b : Addr) (v : Byte), (s.hostWriteText a v).mem.textRead b = if b = a then v else s.mem.textRead b) ∧
    (∀ (a b : Addr) (v : Color),
      (s.hostWritePixbuf a v).mem.pixRead .pixbuf b = if b = a then v else s.mem.pixRead .pixbuf b) ∧
    (∀ (a b : FontAddr) (v : Byte), (s.hostLoadFont a v).mem.fontRead b = if b = a then v else s.mem.fontRead b) ∧
    (∀ (a b : Addr) (v : Color),
      (s.hostLoadPixtab a v).mem.pixRead .pixtab b = if b = a then v else s.mem.pixRead .pixtab b)) ∧
  (∀ (s : State) (a : Addr) (v : Byte), ∃ cells,
    s.hostWriteText a v = { s with mem := { s.mem with text := cells } }) ∧
  (∀ (s : State) (a : Addr) (v : Color), ∃ cells,
    s.hostWritePixbuf a v = { s with mem := { s.mem with pixbuf := cells } }) ∧
  (∀ (s : State) (a : FontAddr) (v : Byte), ∃ cells,
    s.hostLoadFont a v = { s with mem := { s.mem with font := cells } }) ∧
  (∀ (s : State) (a : Addr) (v : Color), ∃ cells,
    s.hostLoadPixtab a v = { s with mem := { s.mem with pixtab := cells } })

/-- The host's bring-up, for any tables: it starts by deasserting chip-enable, its bus events from there on are legal, it
ends idle, carries 139 + 19 + 3 bytes, and its waits are at least 122 ms (R118, R119). -/
def Obligations.BringUpEndsIdle : Prop :=
  (∃ es, bootEvents (bringUp ++ bringUpEnd) = .ce false :: .rs .data :: es ∧ busLegal false .data es = true) ∧
  (∀ ce rs, ceAfter ce (bootEvents (bringUp ++ bringUpEnd)) = false ∧ rsAfter rs (bootEvents (bringUp ++ bringUpEnd)) = .data) ∧
  txCount (bootEvents (bringUp ++ bringUpEnd)) = 161 ∧ bootMillis (bringUp ++ bringUpEnd) = 122
end

