-- ==== Sys2Proof/Laws/Encoding.lean ====
section
/-! SUPPORT. Each field of a packed word is the value packed there (30_encoding.md R46). -/

namespace Sys2Proof

variable (op a b c d : Byte) (fg bg : Color) (ptr : Addr)

/-- The bits of a packed word, from its top field down. -/
theorem getLsbD_packWord (i : Nat) :
    (packWord op a b c d fg bg ptr).getLsbD i =
      if i < 16 then ptr.getLsbD i else if i < 32 then bg.getLsbD (i - 16) else if i < 48 then fg.getLsbD (i - 32)
      else if i < 56 then d.getLsbD (i - 48) else if i < 64 then c.getLsbD (i - 56) else if i < 72 then b.getLsbD (i - 64)
      else if i < 80 then a.getLsbD (i - 72) else op.getLsbD (i - 80) := by
  simp only [packWord, BitVec.getLsbD_append, Nat.sub_sub]
  split_ifs <;> first | rfl | omega

theorem opField_packWord : opField (packWord op a b c d fg bg ptr) = op := by
  ext i hi
  simp only [opField, BitVec.getElem_extractLsb', getLsbD_packWord]
  split_ifs <;> first | omega | simp [← BitVec.getLsbD_eq_getElem]

theorem aField_packWord : aField (packWord op a b c d fg bg ptr) = a := by
  ext i hi
  simp only [aField, BitVec.getElem_extractLsb', getLsbD_packWord]
  split_ifs <;> first | omega | simp [← BitVec.getLsbD_eq_getElem]

theorem bField_packWord : bField (packWord op a b c d fg bg ptr) = b := by
  ext i hi
  simp only [bField, BitVec.getElem_extractLsb', getLsbD_packWord]
  split_ifs <;> first | omega | simp [← BitVec.getLsbD_eq_getElem]

theorem cField_packWord : cField (packWord op a b c d fg bg ptr) = c := by
  ext i hi
  simp only [cField, BitVec.getElem_extractLsb', getLsbD_packWord]
  split_ifs <;> first | omega | simp [← BitVec.getLsbD_eq_getElem]

theorem dField_packWord : dField (packWord op a b c d fg bg ptr) = d := by
  ext i hi
  simp only [dField, BitVec.getElem_extractLsb', getLsbD_packWord]
  split_ifs <;> first | omega | simp [← BitVec.getLsbD_eq_getElem]

theorem fgField_packWord : fgField (packWord op a b c d fg bg ptr) = fg := by
  ext i hi
  simp only [fgField, BitVec.getElem_extractLsb', getLsbD_packWord]
  split_ifs <;> first | omega | simp [← BitVec.getLsbD_eq_getElem]

theorem bgField_packWord : bgField (packWord op a b c d fg bg ptr) = bg := by
  ext i hi
  simp only [bgField, BitVec.getElem_extractLsb', getLsbD_packWord]
  split_ifs <;> first | omega | simp [← BitVec.getLsbD_eq_getElem]

theorem ptrField_packWord : ptrField (packWord op a b c d fg bg ptr) = ptr := by
  ext i hi
  simp only [ptrField, BitVec.getElem_extractLsb', getLsbD_packWord]
  split_ifs <;> first | omega | simp [← BitVec.getLsbD_eq_getElem]

end Sys2Proof
end

