-- ==== Sys2Proof/Laws/State.lean ====
section
/-! SUPPORT. One lemma per field per update of State, so that no later proof unfolds a record update. -/

namespace Sys2Proof.Machine

@[simp] theorem setIll_ce (s : State) : s.setIll.ce = s.ce := rfl
@[simp] theorem setIll_rs (s : State) : s.setIll.rs = s.rs := rfl
@[simp] theorem setIll_busy (s : State) : s.setIll.busy = s.busy := rfl
@[simp] theorem setIll_ill (s : State) : s.setIll.ill = true := rfl
@[simp] theorem setIll_scratch (s : State) : s.setIll.scratch = s.scratch := rfl
@[simp] theorem setIll_mem (s : State) : s.setIll.mem = s.mem := rfl
@[simp] theorem setIll_prog (s : State) : s.setIll.prog = s.prog := rfl
@[simp] theorem setIll_k (s : State) : s.setIll.k = s.k := rfl
@[simp] theorem setIll_log (s : State) : s.setIll.log = s.log := rfl
@[simp] theorem setIll_freeNext (s : State) : s.setIll.freeNext = s.freeNext := rfl

@[simp] theorem perform_ce (s : State) (acts : List Action) : (s.perform acts).ce = ceAfter s.ce (eventsOf acts) := rfl
@[simp] theorem perform_rs (s : State) (acts : List Action) : (s.perform acts).rs = rsAfter s.rs (eventsOf acts) := rfl
@[simp] theorem perform_busy (s : State) (acts : List Action) : (s.perform acts).busy = s.busy := rfl
@[simp] theorem perform_ill (s : State) (acts : List Action) : (s.perform acts).ill = s.ill := rfl
@[simp] theorem perform_scratch (s : State) (acts : List Action) : (s.perform acts).scratch = s.scratch := rfl
@[simp] theorem perform_mem (s : State) (acts : List Action) : (s.perform acts).mem = s.mem := rfl
@[simp] theorem perform_prog (s : State) (acts : List Action) : (s.perform acts).prog = s.prog := rfl
@[simp] theorem perform_k (s : State) (acts : List Action) : (s.perform acts).k = s.k := rfl
@[simp] theorem perform_log (s : State) (acts : List Action) : (s.perform acts).log = s.log ++ acts := rfl
@[simp] theorem perform_freeNext (s : State) (acts : List Action) : (s.perform acts).freeNext = s.freeNext := rfl

@[simp] theorem finish_ce (s : State) : s.finish.ce = s.ce := rfl
@[simp] theorem finish_rs (s : State) : s.finish.rs = s.rs := rfl
@[simp] theorem finish_busy (s : State) : s.finish.busy = false := rfl
@[simp] theorem finish_ill (s : State) : s.finish.ill = s.ill := rfl
@[simp] theorem finish_mem (s : State) : s.finish.mem = s.mem := rfl
@[simp] theorem finish_prog (s : State) : s.finish.prog = s.prog := rfl
@[simp] theorem finish_k (s : State) : s.finish.k = s.k + 1 := rfl
@[simp] theorem finish_log (s : State) : s.finish.log = s.log := rfl
@[simp] theorem finish_freeNext (s : State) : s.finish.freeNext = s.freeNext + 1 := rfl

@[simp] theorem complete_ce (s : State) (acts : List Action) : (s.complete acts).ce = ceAfter s.ce (eventsOf acts) := rfl
@[simp] theorem complete_rs (s : State) (acts : List Action) : (s.complete acts).rs = rsAfter s.rs (eventsOf acts) := rfl
@[simp] theorem complete_busy (s : State) (acts : List Action) : (s.complete acts).busy = false := rfl
@[simp] theorem complete_ill (s : State) (acts : List Action) : (s.complete acts).ill = s.ill := rfl
@[simp] theorem complete_mem (s : State) (acts : List Action) : (s.complete acts).mem = s.mem := rfl
@[simp] theorem complete_prog (s : State) (acts : List Action) : (s.complete acts).prog = s.prog := rfl
@[simp] theorem complete_k (s : State) (acts : List Action) : (s.complete acts).k = s.k + 1 := rfl
@[simp] theorem complete_log (s : State) (acts : List Action) : (s.complete acts).log = s.log ++ acts := rfl
@[simp] theorem complete_freeNext (s : State) (acts : List Action) : (s.complete acts).freeNext = s.freeNext + 1 := rfl

@[simp] theorem presentWord_prog (s : State) (w : CmdWord) : (s.presentWord w).prog = s.prog ++ [w] := rfl
@[simp] theorem presentWord_ce (s : State) (w : CmdWord) : (s.presentWord w).ce = s.ce := rfl
@[simp] theorem presentWord_rs (s : State) (w : CmdWord) : (s.presentWord w).rs = s.rs := rfl
@[simp] theorem presentWord_busy (s : State) (w : CmdWord) : (s.presentWord w).busy = s.busy := rfl
@[simp] theorem presentWord_ill (s : State) (w : CmdWord) : (s.presentWord w).ill = s.ill := rfl
@[simp] theorem presentWord_scratch (s : State) (w : CmdWord) : (s.presentWord w).scratch = s.scratch := rfl
@[simp] theorem presentWord_mem (s : State) (w : CmdWord) : (s.presentWord w).mem = s.mem := rfl
@[simp] theorem presentWord_k (s : State) (w : CmdWord) : (s.presentWord w).k = s.k := rfl
@[simp] theorem presentWord_log (s : State) (w : CmdWord) : (s.presentWord w).log = s.log := rfl

@[simp] theorem assertReset_busy (s : State) : s.assertReset.busy = false := rfl
@[simp] theorem assertReset_ill (s : State) : s.assertReset.ill = false := rfl
@[simp] theorem assertReset_k (s : State) : s.assertReset.k = 0 := rfl
@[simp] theorem assertReset_mem (s : State) : s.assertReset.mem = s.mem := rfl
@[simp] theorem assertReset_prog (s : State) : s.assertReset.prog = s.prog := rfl
@[simp] theorem assertReset_log (s : State) : s.assertReset.log = s.log ++ bus (resetEvents s.ce s.rs) := rfl
@[simp] theorem assertReset_ce (s : State) : s.assertReset.ce = ceAfter s.ce (eventsOf (bus (resetEvents s.ce s.rs))) := rfl
@[simp] theorem assertReset_rs (s : State) : s.assertReset.rs = rsAfter s.rs (eventsOf (bus (resetEvents s.ce s.rs))) := rfl

end Sys2Proof.Machine
end

