-- ==== Sys2Proof/Laws/Events.lean ====
section
/-! SUPPORT. Events, reads and lines of lists of actions, and what each primitive does to the lines. -/

namespace Sys2Proof.Machine

@[simp] theorem eventsOf_append (as bs : List Action) : eventsOf (as ++ bs) = eventsOf as ++ eventsOf bs := by
  induction as with
  | nil => rfl
  | cons a rest ih => cases a <;> simp [eventsOf, ih]

@[simp] theorem readsOf_append (as bs : List Action) : readsOf (as ++ bs) = readsOf as ++ readsOf bs := by
  induction as with
  | nil => rfl
  | cons a rest ih => cases a <;> simp [readsOf, ih]

@[simp] theorem eventsOf_bus (es : List Event) : eventsOf (bus es) = es := by
  induction es with
  | nil => rfl
  | cons e rest ih => simpa [bus, eventsOf] using ih

@[simp] theorem readsOf_bus (es : List Event) : readsOf (bus es) = [] := by
  induction es with
  | nil => rfl
  | cons e rest ih => simpa [bus, readsOf] using ih

@[simp] theorem bus_append (es fs : List Event) : bus (es ++ fs) = bus es ++ bus fs := by simp [bus]

@[simp] theorem ceAfter_append (ce : Bool) (es fs : List Event) : ceAfter ce (es ++ fs) = ceAfter (ceAfter ce es) fs := by
  induction es generalizing ce with
  | nil => rfl
  | cons e rest ih => cases e <;> simp [ceAfter, ih]

@[simp] theorem rsAfter_append (rs : RsMode) (es fs : List Event) : rsAfter rs (es ++ fs) = rsAfter (rsAfter rs es) fs := by
  induction es generalizing rs with
  | nil => rfl
  | cons e rest ih => cases e <;> simp [rsAfter, ih]

@[simp] theorem ceAfter_tx (ce : Bool) (bs : List Byte) : ceAfter ce (bs.map .tx) = ce := by
  induction bs with
  | nil => rfl
  | cons b rest ih => simpa [ceAfter] using ih

@[simp] theorem rsAfter_tx (rs : RsMode) (bs : List Byte) : rsAfter rs (bs.map .tx) = rs := by
  induction bs with
  | nil => rfl
  | cons b rest ih => simpa [rsAfter] using ih

/-- A trace is legal when its first part is, and its second part from where the lines then stand. -/
theorem busLegal_append (ce : Bool) (rs : RsMode) (es fs : List Event) :
    busLegal ce rs (es ++ fs) = (busLegal ce rs es && busLegal (ceAfter ce es) (rsAfter rs es) fs) := by
  induction es generalizing ce rs with
  | nil => simp [busLegal, ceAfter, rsAfter]
  | cons e rest ih => cases e <;> simp [busLegal, ceAfter, rsAfter, ih, Bool.and_assoc]

/-- Bytes are legal while chip-enable is asserted. -/
theorem busLegal_tx (rs : RsMode) (bs : List Byte) : busLegal true rs (bs.map .tx) = true := by
  induction bs with
  | nil => rfl
  | cons b rest ih => simpa [busLegal] using ih

@[simp] theorem ceAfter_cmdSession (ce : Bool) (bs : List Byte) : ceAfter ce (cmdSession bs) = false := by
  simp [cmdSession, ceAfter]

@[simp] theorem rsAfter_cmdSession (rs : RsMode) (bs : List Byte) : rsAfter rs (cmdSession bs) = .data := by
  simp [cmdSession, rsAfter]

@[simp] theorem ceAfter_dataSession (ce : Bool) (bs : List Byte) : ceAfter ce (dataSession bs) = false := by
  simp [dataSession, ceAfter]

@[simp] theorem rsAfter_dataSession (rs : RsMode) (bs : List Byte) : rsAfter rs (dataSession bs) = rs := by
  simp [dataSession, rsAfter]

/-- A command session is legal from a deasserted chip-enable (R67). -/
theorem busLegal_cmdSession (rs : RsMode) (bs : List Byte) : busLegal false rs (cmdSession bs) = true := by
  simp [cmdSession, busLegal, busLegal_append, busLegal_tx]

/-- A data session is legal from a deasserted chip-enable (R68). -/
theorem busLegal_dataSession (rs : RsMode) (bs : List Byte) : busLegal false rs (dataSession bs) = true := by
  simp [dataSession, busLegal, busLegal_append, busLegal_tx]

@[simp] theorem ceAfter_emitWindow (ce : Bool) (x y : Int) (w h : Nat) : ceAfter ce (emitWindow x y w h) = false := by
  simp [emitWindow]

@[simp] theorem rsAfter_emitWindow (rs : RsMode) (x y : Int) (w h : Nat) : rsAfter rs (emitWindow x y w h) = .data := by
  simp [emitWindow]

@[simp] theorem ceAfter_stream (ce : Bool) (cs : List Color) : ceAfter ce (stream cs) = false := by simp [stream]

@[simp] theorem rsAfter_stream (rs : RsMode) (cs : List Color) : rsAfter rs (stream cs) = rs := by simp [stream]

@[simp] theorem ceAfter_fill (ce : Bool) (x y : Int) (w h : Nat) (c : Color) : ceAfter ce (fill x y w h c) = false := by
  simp [fill]

@[simp] theorem rsAfter_fill (rs : RsMode) (x y : Int) (w h : Nat) (c : Color) : rsAfter rs (fill x y w h c) = .data := by
  simp [fill]

@[simp] theorem ceAfter_pixel (ce : Bool) (x y : Int) (c : Color) : ceAfter ce (pixel x y c) = false := by simp [pixel]

@[simp] theorem rsAfter_pixel (rs : RsMode) (x y : Int) (c : Color) : rsAfter rs (pixel x y c) = .data := by simp [pixel]

/-- A window and a stream are legal from a deasserted chip-enable (R69). -/
theorem busLegal_fill (rs : RsMode) (x y : Int) (w h : Nat) (c : Color) : busLegal false rs (fill x y w h c) = true := by
  simp only [fill, emitWindow, stream, busLegal_append, busLegal_cmdSession, busLegal_dataSession, ceAfter_cmdSession,
    Bool.and_self]

/-- The trace after some actions. -/
@[simp] theorem trace_perform (s : State) (acts : List Action) : (s.perform acts).trace = s.trace ++ eventsOf acts := by
  simp [State.trace, State.perform]

@[simp] theorem reads_perform (s : State) (acts : List Action) : (s.perform acts).reads = s.reads ++ readsOf acts := by
  simp [State.reads, State.perform]

@[simp] theorem trace_complete (s : State) (acts : List Action) : (s.complete acts).trace = s.trace ++ eventsOf acts := by
  simp [State.trace, State.complete, State.perform, State.finish]

@[simp] theorem reads_complete (s : State) (acts : List Action) : (s.complete acts).reads = s.reads ++ readsOf acts := by
  simp [State.reads, State.complete, State.perform, State.finish]

/-- The spec of completing: with lines left idle, exactly these events and reads are added, the index advances, and nothing
else changes but the scratch registers. -/
theorem complete_completed (s : State) (acts : List Action) (hce : ceAfter s.ce (eventsOf acts) = false)
    (hrs : rsAfter s.rs (eventsOf acts) = .data) : Completed s (s.complete acts) (eventsOf acts) (readsOf acts) where
  trace := trace_complete s acts
  reads := reads_complete s acts
  idle := ⟨rfl, hce, hrs⟩
  k := rfl
  keeps := ⟨rfl, rfl, rfl⟩

/-- The spec of taking an illegal command (R107): `ill` is set, nothing is emitted or read, and it completes. -/
theorem takeIllegal_spec (s : State) :
    s.takeIllegal.ill = true ∧ s.takeIllegal.log = s.log ∧ s.takeIllegal.ce = s.ce ∧ s.takeIllegal.rs = s.rs ∧
      s.takeIllegal.busy = false ∧ s.takeIllegal.k = s.k + 1 ∧ s.takeIllegal.mem = s.mem ∧ s.takeIllegal.prog = s.prog := by
  refine ⟨rfl, ?_, rfl, rfl, rfl, rfl, rfl, rfl⟩
  simp [State.takeIllegal]

/-- The spec of going on with a string: it completes, or it is left in progress with `busy` up (R97). -/
theorem runString_cases (s : State) (r : Scratch) :
    (∃ run, run = drawChars s.mem (Config.spaceSize .text) r ∧ run.ended = true ∧ s.runString r = s.complete run.acts) ∨
    (∃ run, run = drawChars s.mem (Config.spaceSize .text) r ∧ run.ended = false ∧
      s.runString r = { s.perform run.acts with busy := true, scratch := run.regs }) := by
  by_cases h : (drawChars s.mem (Config.spaceSize .text) r).ended = true
  · exact .inl ⟨_, rfl, h, by simp [State.runString, h]⟩
  · exact .inr ⟨_, rfl, by simpa using h, by simp [State.runString, h]⟩

/-- The spec of a step: it goes on with a string, stays without a word, takes an illegal word, or runs a command. -/
theorem step_cases {s t : State} (h : step s = .next t) :
    (s.busy = true ∧ t = s.runString s.scratch) ∨
    (s.busy = false ∧ s.fetchWord = none ∧ t = s) ∨
    (s.busy = false ∧ ∃ w e, s.fetchWord = some w ∧ decode w = .error e ∧ t = s.takeIllegal) ∨
    (s.busy = false ∧ ∃ w i, s.fetchWord = some w ∧ decode w = .ok i ∧ exec i s = .next t) := by
  unfold step at h
  split at h
  · next hb => cases h; exact .inl ⟨hb, rfl⟩
  · next hb =>
    have hb' : s.busy = false := by simpa using hb
    split at h
    · next hf => cases h; exact .inr (.inl ⟨hb', hf, rfl⟩)
    · next w hf =>
      unfold takeWord at h
      split at h
      · next i hd => exact .inr (.inr (.inr ⟨hb', w, i, hf, hd, h⟩))
      · next e hd => cases h; exact .inr (.inr (.inl ⟨hb', w, e, hf, hd, rfl⟩))

end Sys2Proof.Machine
end

