-- ==== Sys2Proof/Laws/View.lean ====
section
/-! SUPPORT. The sessions of the primitives, what they do to the reference sink, and the events and reads of a blit and of
the parts of a string. -/

namespace Sys2Proof.Machine

/-- Bytes sent in an open session are added to it. -/
theorem sessionsFrom_tx (rs m : RsMode) (bs xs : List Byte) (es : List Event) :
    sessionsFrom rs (some ⟨m, bs⟩) (xs.map .tx ++ es) = sessionsFrom rs (some ⟨m, bs ++ xs⟩) es := by
  induction xs generalizing bs with
  | nil => simp
  | cons b rest ih => simp [sessionsFrom, ih]

/-- A command session is one session, opened in command mode (R67). -/
theorem sessionsFrom_cmdSession (rs : RsMode) (cur : Option Session) (bs : List Byte) (es : List Event) :
    sessionsFrom rs cur (cmdSession bs ++ es) = ⟨.command, bs⟩ :: sessionsFrom .data none es := by
  simp [cmdSession, sessionsFrom, sessionsFrom_tx]

/-- A data session in data mode is one session (R68). -/
theorem sessionsFrom_dataSession (rs : RsMode) (cur : Option Session) (bs : List Byte) (es : List Event) :
    sessionsFrom rs cur (dataSession bs ++ es) = ⟨rs, bs⟩ :: sessionsFrom rs none es := by
  simp [dataSession, sessionsFrom, sessionsFrom_tx]

/-- Splitting a byte over two tagged bytes and joining them gives the byte back (R60). -/
theorem joinSplit_split (v : Byte) :
    joinSplit 0 1 (tagged 0 (lo v)) (tagged 1 (hi v)) = some v.toNat ∧
      joinSplit 2 3 (tagged 2 (lo v)) (tagged 3 (hi v)) = some v.toNat := by
  revert v
  decide +kernel

/-- The window command of a rectangle that keeps the window invariant is read back as that rectangle (R61, R70, R41). -/
theorem parseWindow_emitted (r : Window) (h : r.ok = true) :
    parseWindow (windowBytes (mod256 (2 * r.x + 6)) (mod256 r.y) (mod256 (2 * (r.x + r.width - 1) + 7))
      (mod256 (r.y + r.height - 1))) = some r := by
  obtain ⟨x, y, w, h'⟩ := r
  simp only [Window.ok, windowOk, Bool.and_eq_true, decide_eq_true_eq, Config.screenW, Config.screenH] at h
  obtain ⟨⟨⟨h1, h2⟩, h3⟩, h4⟩ := h
  have h3 : x + w ≤ 101 := of_decide_eq_true h3
  have h4 : y + h' ≤ 80 := of_decide_eq_true h4
  have h1 : 1 ≤ w := h1
  have h2 : 1 ≤ h' := h2
  have e1 : (mod256 (2 * (x : Int) + 6)).toNat = 2 * x + 6 := by simp only [mod256, BitVec.toNat_ofInt]; omega
  have e2 : (mod256 (y : Int)).toNat = y := by simp only [mod256, BitVec.toNat_ofInt]; omega
  have e3 : (mod256 (2 * ((x : Int) + w - 1) + 7)).toNat = 2 * (x + w) + 5 := by simp only [mod256, BitVec.toNat_ofInt]; omega
  have e4 : (mod256 ((y : Int) + h' - 1)).toNat = y + h' - 1 := by simp only [mod256, BitVec.toNat_ofInt]; omega
  simp only [windowBytes, split, List.cons_append, List.nil_append, parseWindow, (joinSplit_split _).1, (joinSplit_split _).2,
    e1, e2, e3, e4, Option.bind_eq_bind, Option.bind_some]
  have hw : 6 ≤ 2 * x + 6 ∧ (2 * x + 6) % 2 = 0 ∧ (2 * (x + w) + 5) % 2 = 1 ∧ 2 * x + 6 < 2 * (x + w) + 5 ∧
      2 * (x + w) + 5 ≤ 207 ∧ y ≤ y + h' - 1 ∧ y + h' - 1 ≤ 79 := by omega
  simp only [windowOf, if_pos hw, Option.some.injEq, Window.mk.injEq]
  refine ⟨by omega, trivial, by omega, by omega⟩

/-- The pairs of some colours are read back as their low twelve bits (R44, R65). -/
theorem pairColors_flatMap (cs : List Color) : pairColors (cs.flatMap pair) = some (cs.map color12) := by
  induction cs with
  | nil => rfl
  | cons c rest ih =>
    simp only [List.flatMap_cons, pair, List.cons_append, List.nil_append, pairColors, ih, Option.map_some, List.map_cons,
      Option.some.injEq, List.cons.injEq, and_true]
    have := c.isLt
    apply BitVec.eq_of_toNat_eq
    simp only [pairColor, color12, colorHi, colorLo, lo, BitVec.toNat_append, BitVec.extractLsb'_toNat,
      Nat.shiftRight_eq_div_pow, Nat.shiftLeft_eq]
    rw [← Nat.shiftLeft_eq, ← Nat.shiftLeft_add_eq_or_of_lt (Nat.mod_lt _ (by decide)), Nat.shiftLeft_eq]
    omega

/-- What a window and its one data session do to the sink (R41, R42 a). -/
theorem receive_fill (k : Sink) (r : Window) (more : List Window) (cs : List Color) (rest : List Session) (h : r.ok = true)
    (hn : cs.length ≤ r.width * r.height) :
    k.receive (r :: more) (sessions (emitWindow r.x r.y r.width r.height ++ stream cs) ++ rest) =
      Sink.receive more ⟨some r, false, k.writes ++ fillWindow r 0 (cs.map color12)⟩ rest := by
  have hs : sessions (emitWindow r.x r.y r.width r.height ++ stream cs) =
      [⟨.command, windowBytes (mod256 (2 * r.x + 6)) (mod256 r.y) (mod256 (2 * (r.x + r.width - 1) + 7))
        (mod256 (r.y + r.height - 1))⟩, ⟨.data, cs.flatMap pair⟩] := by
    rw [sessions, emitWindow, sessionsFrom_cmdSession, stream, ← List.append_nil (dataSession _), sessionsFrom_dataSession]
    rfl
  have hw : ∀ a b c d, isWindowCommand (windowBytes a b c d) = true := fun _ _ _ _ => rfl
  simp [hs, Sink.receive, hw, h, parseWindow_emitted r h, pairColors_flatMap, hn]

/-- The later of two lists of writes decides a pixel's colour, where it writes it (R41). -/
theorem colorAt_append (x y : Nat) (ws vs : List PixelWrite) :
    colorAt x y (ws ++ vs) = (colorAt x y vs).or (colorAt x y ws) := by
  have key : ∀ c, vs.foldl (fun c p => if p.x = x ∧ p.y = y then some p.color else c) c =
      (colorAt x y vs).or c := by
    induction vs with
    | nil => simp [colorAt]
    | cons v rest ih =>
      intro c
      simp only [colorAt, List.foldl_cons] at ih ⊢
      rw [ih, ih (if v.x = x ∧ v.y = y then some v.color else none)]
      split <;> simp
  rw [colorAt, List.foldl_append, key]; rfl

/-- Events that open no session change nothing of the sink, whatever the command (R23). -/
theorem hear_silent (k : Sink) (s : State) (es : List Event) (h : sessions es = []) : k.hear s es = some k := by
  unfold Sink.hear
  split <;> simp [h, Sink.receive]

/-- A reset with chip-enable deasserted and nothing sent leaves the controller as it was, whatever word is presented (R23). -/
theorem afterResetDuring_zero (k : Sink) (s : State) (h : s.ce = false) : k.afterResetDuring s 0 = some k := by
  have hm : midBurst s 0 = false := by simp [midBurst, eventsOf, ceAfter, h]
  have hs : sessions (eventsOf ((s.resetDuring 0).log.drop s.log.length)) = [] := by
    simp only [State.resetDuring, List.take_zero, assertReset_log, perform_log, perform_ce, perform_rs, eventsOf, ceAfter,
      rsAfter, h, List.append_nil, List.drop_left, eventsOf_bus]
    cases s.rs <;> rfl
  rw [Sink.afterResetDuring, hm, if_neg Bool.false_ne_true, hear_silent k s _ hs]

/-- The next address on, then `i` more, is `i + 1` more. -/
theorem addr_shift (a : Addr) (i : Nat) : a + 1#16 + BitVec.ofNat 16 i = a + BitVec.ofNat 16 (i + 1) := by
  rw [BitVec.add_assoc]
  congr 1
  apply BitVec.eq_of_toNat_eq
  simp [Nat.add_comm]

/-- The events of a blit's words are their bytes, in address order (R105). -/
theorem eventsOf_blitWords (m : Memory) (src : PixSource) (n : Nat) (a : Addr) :
    eventsOf (blitWords m src n a) = ((List.range n).flatMap (fun i => pair (m.pixRead src (a + BitVec.ofNat 16 i)))).map .tx := by
  induction n generalizing a with
  | zero => rfl
  | succ n ih =>
    simp [blitWords, eventsOf, ih, List.range_succ_eq_map, List.flatMap_map, addr_shift]

/-- The reads of a blit's words, in address order (R105). -/
theorem readsOf_blitWords (m : Memory) (src : PixSource) (n : Nat) (a : Addr) :
    readsOf (blitWords m src n a) = (List.range n).map (fun i => (src.space, (a + BitVec.ofNat 16 i).toNat)) := by
  induction n generalizing a with
  | zero => rfl
  | succ n ih =>
    simp only [blitWords, readsOf, readsOf_append, readsOf_bus, List.nil_append, ih, List.range_succ_eq_map, List.map_cons,
      List.map_map, List.cons.injEq]
    refine ⟨by simp, List.map_congr_left fun i _ => ?_⟩
    exact congrArg (fun v : Addr => (src.space, v.toNat)) (addr_shift a i)

/-- A blit's trace is a window and the stream of its words (R105). -/
theorem eventsOf_blit (m : Memory) (src : PixSource) (x y width height : Byte) (ptr : Addr) :
    eventsOf (blit m src x y width height ptr) =
      emitWindow (coord x) (coord y) width.toNat height.toNat ++
        stream ((List.range (width.toNat * height.toNat)).map (fun i => m.pixRead src (ptr + BitVec.ofNat 16 i))) := by
  simp [blit, eventsOf, eventsOf_blitWords, stream, dataSession, List.flatMap_map]

/-- A blit reads its words and nothing else (R105). -/
theorem readsOf_blit (m : Memory) (src : PixSource) (x y width height : Byte) (ptr : Addr) :
    readsOf (blit m src x y width height ptr) =
      (List.range (width.toNat * height.toNat)).map (fun i => (src.space, (ptr + BitVec.ofNat 16 i).toNat)) := by
  simp [blit, readsOf, readsOf_blitWords]

/-- One glyph column: one font read, one window and one stream (R95). -/
theorem drawColumn_spec (m : Memory) (col : Byte) (r : Scratch) :
    eventsOf (drawColumn m col r).acts = columnStream r (columnColors r.fg r.bg (m.fontRead (columnAddr r.gb col))) ∧
    readsOf (drawColumn m col r).acts = [(.font, (columnAddr r.gb col).toNat)] ∧
    (drawColumn m col r).regs.x = r.x + 1 ∧ (drawColumn m col r).regs.y = r.y ∧ (drawColumn m col r).regs.fg = r.fg ∧
    (drawColumn m col r).regs.bg = r.bg ∧ (drawColumn m col r).regs.ptr = r.ptr ∧ (drawColumn m col r).regs.gb = r.gb := by
  refine ⟨?_, ?_, rfl, rfl, rfl, rfl, rfl, rfl⟩ <;> simp [drawColumn, eventsOf, readsOf]

/-- What drawing columns keeps: the row, the colours, the pointer and the glyph base; and `X` advances by one each. -/
theorem drawColumns_regs (m : Memory) (n : Nat) (col : Byte) (r : Scratch) :
    (drawColumns m n col r).regs.x = r.x + BitVec.ofNat 8 n ∧ (drawColumns m n col r).regs.y = r.y ∧
    (drawColumns m n col r).regs.fg = r.fg ∧ (drawColumns m n col r).regs.bg = r.bg ∧
    (drawColumns m n col r).regs.ptr = r.ptr ∧ (drawColumns m n col r).regs.gb = r.gb := by
  induction n generalizing col r with
  | zero => simp [drawColumns]
  | succ n ih =>
    obtain ⟨hx, hy, hfg, hbg, hptr, hgb⟩ := ih (col + 1) (drawColumn m col r).regs
    refine ⟨?_, hy, hfg, hbg, hptr, hgb⟩
    simp only [drawColumns, hx, (drawColumn_spec m col r).2.2.1]
    rw [BitVec.add_assoc]
    congr 1
    apply BitVec.eq_of_toNat_eq
    simp [Nat.add_comm]

/-- What drawing a character keeps and moves (R94, R96): `X` past its columns and the spacing column, `PTR` past its code. -/
theorem drawChar_regs (m : Memory) (ch : Byte) (r : Scratch) :
    (drawChar m ch r).regs.x = r.x + m.fontRead (glyphBase ch) + 1 ∧ (drawChar m ch r).regs.y = r.y ∧
    (drawChar m ch r).regs.fg = r.fg ∧ (drawChar m ch r).regs.bg = r.bg ∧ (drawChar m ch r).regs.ptr = r.ptr + 1 := by
  obtain ⟨hx, hy, hfg, hbg, hptr, -⟩ := drawColumns_regs m (m.fontRead (glyphBase ch)).toNat 0 (fetchGlyph m ch r).regs
  refine ⟨?_, hy, hfg, hbg, hptr⟩
  simp only [drawChar, drawSpacing, fetchGlyph] at hx ⊢
  rw [hx]
  simp

end Sys2Proof.Machine
end

