-- ==== Sys2Proof/Laws/Exec.lean ====
section
/-! SUPPORT. What a command can do, said once: the traces that start and end idle, one equation per arm of `exec`, and the
inversion of `exec`. -/

namespace Sys2Proof.Machine

/-! ### Numbers and bytes -/

/-- A coordinate reduced modulo 256 is the byte of the number it is congruent to (R75). -/
theorem mod256_nat (n : Nat) (v : Int) (h : v % 256 = n % 256) : mod256 v = BitVec.ofNat 8 n := by
  apply BitVec.eq_of_toNat_eq
  simp only [mod256, BitVec.toNat_ofInt, BitVec.toNat_ofNat]
  omega

/-- A parameter byte as a number: sixteen times its tag, plus its data (R60). -/
theorem tagged_toNat (t d : Nibble) : (tagged t d).toNat = 16 * t.toNat + d.toNat := by
  revert t d
  decide +kernel

/-- The halves of a byte as numbers (R7). -/
theorem lo_toNat (v : Byte) : (lo v).toNat = v.toNat % 16 := by
  revert v
  decide +kernel

theorem hi_toNat (v : Byte) : (hi v).toNat = v.toNat / 16 := by
  revert v
  decide +kernel

/-- The bytes of a colour as numbers (R65). -/
theorem colorHi_toNat (c : Color) : (colorHi c).toNat = c.toNat / 256 := by
  have := c.isLt
  simp [colorHi, BitVec.extractLsb'_toNat, Nat.shiftRight_eq_div_pow]
  omega

theorem colorLo_toNat (c : Color) : (colorLo c).toNat = c.toNat % 256 := by
  simp [colorLo, BitVec.extractLsb'_toNat]

/-! ### Traces that start and end idle -/

/-- Events that are legal from idle lines and leave them idle (R77). -/
structure IdleTrace (es : List Event) : Prop where
  legal : busLegal false .data es = true
  ce : ceAfter false es = false
  rs : rsAfter .data es = .data

theorem IdleTrace.nil : IdleTrace [] := ⟨rfl, rfl, rfl⟩

theorem IdleTrace.append {es fs : List Event} (he : IdleTrace es) (hf : IdleTrace fs) : IdleTrace (es ++ fs) where
  legal := by simp [busLegal_append, he.legal, he.ce, he.rs, hf.legal]
  ce := by simp [he.ce, hf.ce]
  rs := by simp [he.rs, hf.rs]

theorem IdleTrace.flatMap {α : Type} (l : List α) (f : α → List Event) (h : ∀ a, IdleTrace (f a)) :
    IdleTrace (l.flatMap f) := by
  induction l with
  | nil => exact .nil
  | cons a rest ih => simpa using (h a).append ih

theorem idleTrace_cmdSession (bs : List Byte) : IdleTrace (cmdSession bs) := ⟨busLegal_cmdSession _ _, by simp, by simp⟩

theorem idleTrace_emitWindow (x y : Int) (w h : Nat) : IdleTrace (emitWindow x y w h) := idleTrace_cmdSession _

theorem idleTrace_stream (cs : List Color) : IdleTrace (stream cs) := ⟨busLegal_dataSession _ _, by simp, by simp⟩

theorem idleTrace_fill (x y : Int) (w h : Nat) (c : Color) : IdleTrace (fill x y w h c) :=
  (idleTrace_emitWindow ..).append (idleTrace_stream _)

theorem idleTrace_line (x1 y1 x2 y2 : Byte) (c : Color) : IdleTrace (lineEvents x1 y1 x2 y2 c) := by
  unfold lineEvents
  split
  · exact idleTrace_fill ..
  · split
    · exact idleTrace_fill ..
    · exact .flatMap _ _ fun _ => idleTrace_fill ..

theorem idleTrace_blit (m : Memory) (src : PixSource) (x y w h : Byte) (p : Addr) :
    IdleTrace (eventsOf (blit m src x y w h p)) := by
  rw [eventsOf_blit]
  exact (idleTrace_emitWindow ..).append (idleTrace_stream _)

theorem idleTrace_columnStream (r : Scratch) (cs : List Color) : IdleTrace (columnStream r cs) :=
  (idleTrace_emitWindow ..).append (idleTrace_stream _)

theorem idleTrace_drawColumns (m : Memory) (n : Nat) (col : Byte) (r : Scratch) :
    IdleTrace (eventsOf (drawColumns m n col r).acts) := by
  induction n generalizing col r with
  | zero => exact .nil
  | succ n ih =>
    simp only [drawColumns, eventsOf_append, (drawColumn_spec m col r).1]
    exact (idleTrace_columnStream ..).append (ih ..)

theorem idleTrace_drawChar (m : Memory) (ch : Byte) (r : Scratch) : IdleTrace (eventsOf (drawChar m ch r).acts) := by
  have hsp : ∀ q : Scratch, IdleTrace (eventsOf (drawSpacing q).acts) := by
    intro q
    simp only [drawSpacing, eventsOf_bus]
    exact idleTrace_columnStream ..
  simp only [drawChar, eventsOf_append]
  exact (IdleTrace.nil.append (idleTrace_drawColumns ..)).append (hsp _)

theorem idleTrace_drawChars (m : Memory) (n : Nat) (r : Scratch) : IdleTrace (eventsOf (drawChars m n r).acts) := by
  induction n generalizing r with
  | zero => exact .nil
  | succ n ih =>
    simp only [drawChars]
    split
    · exact .nil
    · simp only [eventsOf, eventsOf_append]
      exact (idleTrace_drawChar ..).append (ih _)

/-! ### The arms of exec -/

section
variable (s : State) (x y width height x1 y1 x2 y2 v : Byte) (color background : Color) (ptr : Addr)

theorem exec_setwindow : exec (.setwindow x y width height) s =
    .next (s.complete (bus (emitWindow (coord x) (coord y) width.toNat height.toNat))) := rfl
theorem exec_setcontrast : exec (.setcontrast v) s =
    .next (s.complete (bus (cmdSession [0xF4, tagged 0xB (hi v), tagged 0xA (lo v)]))) := rfl
theorem exec_setlcdon (on : Bool) : exec (.setlcdon on) s =
    .next (s.complete (bus (cmdSession [0xF0, tagged 0x8 (bitNibble on)]))) := rfl
theorem exec_inversescreen (inverse : Bool) : exec (.inversescreen inverse) s =
    .next (s.complete (bus (cmdSession [0xF0, if inverse then 0x99 else 0x91]))) := rfl
theorem exec_setstartline : exec (.setstartline v) s =
    .next (s.complete (bus (cmdSession (0xF0 :: split 0x4 0x5 v)))) := rfl
theorem exec_setinverselines (mode : BitVec 2) : exec (.setinverselines y height mode) s =
    .next (s.complete (bus (cmdSession (inverseLinesBytes y (mod256 (coord y + coord height - 1)) mode)))) := rfl
theorem exec_drawpixel : exec (.drawpixel x y color) s = .next (s.complete (bus (pixel (coord x) (coord y) color))) := rfl
theorem exec_drawline : exec (.drawline x1 y1 x2 y2 color) s =
    .next (s.complete (bus (lineEvents x1 y1 x2 y2 color))) := rfl
theorem exec_fillrect : exec (.fillrect x y width height color) s =
    .next (s.complete (bus (fill (coord x) (coord y) width.toNat height.toNat color))) := rfl
theorem exec_drawrect : exec (.drawrect x y width height color) s =
    .next (s.complete (bus (rectEvents x y width height color))) := rfl
theorem exec_clear : exec (.clear color) s =
    .next (s.complete (bus (fill 0 0 Config.screenW Config.screenH color))) := rfl
theorem exec_drawbitmapb : exec (.drawbitmapb x y width height ptr) s =
    .next (s.complete (blit s.mem .pixbuf x y width height ptr)) := rfl
theorem exec_drawbitmapt : exec (.drawbitmapt x y width height ptr) s =
    .next (s.complete (blit s.mem .pixtab x y width height ptr)) := rfl
theorem exec_drawstring : exec (.drawstring x y color background ptr) s =
    .next (s.runString { s.scratch with x := x, y := y, fg := color, bg := background, ptr := ptr }) := rfl

end

/-- The spec of a command: it completes with actions whose events start and end idle, or it runs a string. -/
theorem exec_cases {i : Instr} {s t : State} (h : exec i s = .next t) :
    (∃ acts, IdleTrace (eventsOf acts) ∧ t = s.complete acts) ∨ ∃ r, t = s.runString r := by
  cases i with
  | drawstring x y color background ptr => rw [exec_drawstring] at h; cases h; exact .inr ⟨_, rfl⟩
  | drawbitmapb x y width height ptr =>
    rw [exec_drawbitmapb, Host.Outcome.next.injEq] at h
    exact .inl ⟨_, idleTrace_blit .., h.symm⟩
  | drawbitmapt x y width height ptr =>
    rw [exec_drawbitmapt, Host.Outcome.next.injEq] at h
    exact .inl ⟨_, idleTrace_blit .., h.symm⟩
  | setwindow x y width height =>
    rw [exec_setwindow, Host.Outcome.next.injEq] at h
    exact .inl ⟨_, by rw [eventsOf_bus]; exact idleTrace_emitWindow .., h.symm⟩
  | setcontrast v =>
    rw [exec_setcontrast, Host.Outcome.next.injEq] at h
    exact .inl ⟨_, by rw [eventsOf_bus]; exact idleTrace_cmdSession _, h.symm⟩
  | setlcdon on =>
    rw [exec_setlcdon, Host.Outcome.next.injEq] at h
    exact .inl ⟨_, by rw [eventsOf_bus]; exact idleTrace_cmdSession _, h.symm⟩
  | inversescreen inverse =>
    rw [exec_inversescreen, Host.Outcome.next.injEq] at h
    exact .inl ⟨_, by rw [eventsOf_bus]; exact idleTrace_cmdSession _, h.symm⟩
  | setstartline v =>
    rw [exec_setstartline, Host.Outcome.next.injEq] at h
    exact .inl ⟨_, by rw [eventsOf_bus]; exact idleTrace_cmdSession _, h.symm⟩
  | setinverselines y height mode =>
    rw [exec_setinverselines, Host.Outcome.next.injEq] at h
    exact .inl ⟨_, by rw [eventsOf_bus]; exact idleTrace_cmdSession _, h.symm⟩
  | drawpixel x y color =>
    rw [exec_drawpixel, Host.Outcome.next.injEq] at h
    exact .inl ⟨_, by rw [eventsOf_bus]; exact idleTrace_fill .., h.symm⟩
  | drawline x1 y1 x2 y2 color =>
    rw [exec_drawline, Host.Outcome.next.injEq] at h
    exact .inl ⟨_, by rw [eventsOf_bus]; exact idleTrace_line .., h.symm⟩
  | fillrect x y width height color =>
    rw [exec_fillrect, Host.Outcome.next.injEq] at h
    exact .inl ⟨_, by rw [eventsOf_bus]; exact idleTrace_fill .., h.symm⟩
  | drawrect x y width height color =>
    rw [exec_drawrect, Host.Outcome.next.injEq] at h
    exact .inl ⟨_, by
      rw [eventsOf_bus]
      exact (((idleTrace_fill ..).append (idleTrace_fill ..)).append (idleTrace_fill ..)).append (idleTrace_fill ..), h.symm⟩
  | clear color =>
    rw [exec_clear, Host.Outcome.next.injEq] at h
    exact .inl ⟨_, by rw [eventsOf_bus]; exact idleTrace_fill .., h.symm⟩

end Sys2Proof.Machine
end

