-- ==== Sys2Proof/Laws/Memory.lean ====
section
/-! SUPPORT. The laws of a space: reading after a write, and every write keeps the canonical form. -/

namespace Sys2Proof.Machine

variable {w : Nat}

/-- A canonical space lists nothing below its lower bound. -/
theorem readCell_below {size low a : Nat} {m : Cells w} (h : Cells.wfFrom size low m = true) (ha : a < low) :
    readCell m a = Config.unlisted w := by
  induction m generalizing low with
  | nil => rfl
  | cons p rest ih =>
    obtain ⟨b, v⟩ := p
    simp only [Cells.wfFrom, Bool.and_eq_true, decide_eq_true_eq] at h
    have hne : a ≠ b := by omega
    simp only [readCell, hne, if_false]
    exact ih h.2 (by omega)

/-- Reading where a write went gives the value written. -/
theorem readCell_writeCell_same {size low a : Nat} {m : Cells w} (h : Cells.wfFrom size low m = true) (v : BitVec w) :
    readCell (writeCell m a v) a = v := by
  induction m generalizing low with
  | nil => by_cases hv : v = Config.unlisted w <;> simp [writeCell, readCell, hv]
  | cons p rest ih =>
    obtain ⟨b, u⟩ := p
    simp only [Cells.wfFrom, Bool.and_eq_true, decide_eq_true_eq] at h
    by_cases hlt : a < b
    · by_cases hv : v = Config.unlisted w
      · have hne : a ≠ b := by omega
        simp only [writeCell, hlt, hv, if_true, readCell, hne, if_false]
        exact readCell_below h.2 (by omega)
      · simp [writeCell, hlt, hv, readCell]
    · by_cases heq : a = b
      · subst heq
        by_cases hv : v = Config.unlisted w
        · simp only [writeCell, hv, if_true, lt_irrefl, if_false]
          exact readCell_below h.2 (by omega)
        · simp [writeCell, hv, readCell]
      · simp only [writeCell, hlt, heq, if_false, readCell]
        exact ih h.2

/-- A write leaves every other address as it was. -/
theorem readCell_writeCell_other {a b : Nat} (m : Cells w) (v : BitVec w) (hab : a ≠ b) :
    readCell (writeCell m b v) a = readCell m a := by
  induction m with
  | nil => by_cases hv : v = Config.unlisted w <;> simp [writeCell, readCell, hv, hab]
  | cons p rest ih =>
    obtain ⟨c, u⟩ := p
    simp only [writeCell]
    split
    · split <;> simp [readCell, hab]
    · split
      · next _ hbc => subst hbc; split <;> simp [readCell, hab]
      · simp only [readCell, ih]

/-- A write inside the space keeps the canonical form. -/
theorem writeCell_wfFrom {size low a : Nat} {m : Cells w} (h : Cells.wfFrom size low m = true) (v : BitVec w)
    (hlow : low ≤ a) (hsize : a < size) : Cells.wfFrom size low (writeCell m a v) = true := by
  induction m generalizing low with
  | nil => by_cases hv : v = Config.unlisted w <;> simp [writeCell, Cells.wfFrom, hv, hlow, hsize]
  | cons p rest ih =>
    obtain ⟨b, u⟩ := p
    have h' := h
    simp only [Cells.wfFrom, Bool.and_eq_true, decide_eq_true_eq] at h
    obtain ⟨⟨⟨hb, hbs⟩, hu⟩, hrest⟩ := h
    simp only [writeCell]
    split
    · split
      · exact h'
      · next _ hv => simp [Cells.wfFrom, hlow, hsize, hv, hbs, hu, hrest]; omega
    · split
      · split
        · next _ hab hv =>
          subst hab
          cases rest with
          | nil => rfl
          | cons q r =>
            obtain ⟨c, x⟩ := q
            simp only [Cells.wfFrom, Bool.and_eq_true, decide_eq_true_eq] at hrest ⊢
            exact ⟨⟨⟨by omega, hrest.1.1.2⟩, hrest.1.2⟩, hrest.2⟩
        · next _ hab hv => subst hab; simp [Cells.wfFrom, hlow, hsize, hv, hrest]
      · simp only [Cells.wfFrom, Bool.and_eq_true, decide_eq_true_eq]
        exact ⟨⟨⟨hb, hbs⟩, hu⟩, ih hrest (by omega)⟩

/-- Nothing is listed right after reset, which is canonical. -/
theorem reset_mem_wf : State.reset.mem.wf = true := by decide

/-- Writing a byte of `TEXT` keeps the memories canonical. -/
theorem hostWriteText_wf {s : State} (h : s.mem.wf = true) (a : Addr) (v : Byte) : (s.hostWriteText a v).mem.wf = true := by
  simp only [Memory.wf, Bool.and_eq_true, State.hostWriteText] at h ⊢
  exact ⟨⟨⟨h.1.1.1, writeCell_wfFrom h.1.1.2 v (Nat.zero_le _) a.isLt⟩, h.1.2⟩, h.2⟩

/-- Writing a word of `PIXBUF` keeps the memories canonical. -/
theorem hostWritePixbuf_wf {s : State} (h : s.mem.wf = true) (a : Addr) (v : Color) :
    (s.hostWritePixbuf a v).mem.wf = true := by
  simp only [Memory.wf, Bool.and_eq_true, State.hostWritePixbuf] at h ⊢
  exact ⟨⟨h.1.1, writeCell_wfFrom h.1.2 v (Nat.zero_le _) a.isLt⟩, h.2⟩

/-- Loading a byte of `FONT` keeps the memories canonical. -/
theorem hostLoadFont_wf {s : State} (h : s.mem.wf = true) (a : FontAddr) (v : Byte) :
    (s.hostLoadFont a v).mem.wf = true := by
  simp only [Memory.wf, Bool.and_eq_true, State.hostLoadFont] at h ⊢
  exact ⟨⟨⟨writeCell_wfFrom h.1.1.1 v (Nat.zero_le _) a.isLt, h.1.1.2⟩, h.1.2⟩, h.2⟩

/-- Loading a word of `PIXTAB` keeps the memories canonical. -/
theorem hostLoadPixtab_wf {s : State} (h : s.mem.wf = true) (a : Addr) (v : Color) :
    (s.hostLoadPixtab a v).mem.wf = true := by
  simp only [Memory.wf, Bool.and_eq_true, State.hostLoadPixtab] at h ⊢
  exact ⟨⟨h.1.1, h.1.2⟩, writeCell_wfFrom h.2 v (Nat.zero_le _) a.isLt⟩

end Sys2Proof.Machine
end

