-- ==== Sys2Proof/Laws/PerInstr.lean ====
section
/-! SUPPORT. A family of statements about every command as syntax: its word carries its own opcode in `B0` (30_encoding.md
R47, R49). -/

namespace Sys2Proof.Laws.EncodedOpcode

/-- The word of a command has the command's opcode in its `op` field. -/
def Statement (i : Instr) : Prop := opField (encode i) = i.opcode

theorem setwindow (x y width height : Byte) : Statement (.setwindow x y width height) := opField_packWord ..
theorem setcontrast (contrast : Byte) : Statement (.setcontrast contrast) := opField_packWord ..
theorem setlcdon (on : Bool) : Statement (.setlcdon on) := opField_packWord ..
theorem inversescreen (inverse : Bool) : Statement (.inversescreen inverse) := opField_packWord ..
theorem setstartline (line : Byte) : Statement (.setstartline line) := opField_packWord ..
theorem setinverselines (y height : Byte) (mode : BitVec 2) : Statement (.setinverselines y height mode) := opField_packWord ..
theorem drawpixel (x y : Byte) (color : Color) : Statement (.drawpixel x y color) := opField_packWord ..
theorem drawline (x1 y1 x2 y2 : Byte) (color : Color) : Statement (.drawline x1 y1 x2 y2 color) := opField_packWord ..
theorem fillrect (x y width height : Byte) (color : Color) : Statement (.fillrect x y width height color) := opField_packWord ..
theorem drawrect (x y width height : Byte) (color : Color) : Statement (.drawrect x y width height color) := opField_packWord ..
theorem clear (color : Color) : Statement (.clear color) := opField_packWord ..
theorem drawbitmapb (x y width height : Byte) (ptr : Addr) : Statement (.drawbitmapb x y width height ptr) := opField_packWord ..
theorem drawbitmapt (x y width height : Byte) (ptr : Addr) : Statement (.drawbitmapt x y width height ptr) := opField_packWord ..
theorem drawstring (x y : Byte) (color background : Color) (ptr : Addr) :
    Statement (.drawstring x y color background ptr) := opField_packWord ..

end Sys2Proof.Laws.EncodedOpcode
end

