-- ==== Sys2Proof/Tests/Slice0.lean ====
section
/-! SUPPORT. Tests. Expected values are those of spec/95_test_vectors.md (vectors named there by S, E, L, T, F, X) or the
worked examples of the rules; words are written out from 30_encoding.md R46 and R47. The last part shows, for every
statement with hypotheses, operands and a state that meet them. -/

namespace Sys2Proof.Tests

open Sys2Proof.Machine

/-! ### WellFormed refuses what each check is for -/

theorem test_wf_window_height : (Instr.setwindow 10 78 1 3).wellFormed = false := by decide
theorem test_wf_window_empty : (Instr.fillrect 5 5 0 3 0x0FFF).wellFormed = false := by decide
theorem test_wf_window_right : (Instr.drawbitmapb 100 0 2 1 0).wellFormed = false := by decide
theorem test_wf_pixel : (Instr.drawpixel 101 0 0).wellFormed = false := by decide
theorem test_wf_endpoint : (Instr.drawline 0 0 5 80 0).wellFormed = false := by decide
theorem test_wf_color : (Instr.clear 0x1000).wellFormed = false := by decide
theorem test_wf_contrast : (Instr.setcontrast 128).wellFormed = false := by decide
theorem test_wf_startline : (Instr.setstartline 80).wellFormed = false := by decide
theorem test_wf_mode : (Instr.setinverselines 0 8 2).wellFormed = false := by decide
theorem test_wf_rows : (Instr.setinverselines 79 2 1).wellFormed = false := by decide
theorem test_wf_string_rows : (Instr.drawstring 0 73 0 0 0).wellFormed = false := by decide
theorem test_wf_good : (Instr.drawline 100 79 0 0 0x0FFF).wellFormed = true := by decide

/-! ### Every constructor's decoding, from a word of 95 part 2 -/

theorem test_decode_setwindow : decode 0x0100006550000000000000 = .ok (.setwindow 0 0 101 80) := by decide
theorem test_decode_setcontrast : decode 0x0230000000000000000000 = .ok (.setcontrast 48) := by decide
theorem test_decode_setlcdon : decode 0x03FF112233445566778899 = .ok (.setlcdon true) := by decide
theorem test_decode_inversescreen : decode 0x0400000000000000000000 = .ok (.inversescreen false) := by decide
theorem test_decode_setstartline : decode 0x0511000000000000000000 = .ok (.setstartline 17) := by decide
theorem test_decode_setinverselines : decode 0x0610080300000000000000 = .ok (.setinverselines 16 8 3) := by decide
theorem test_decode_drawpixel : decode 0x10050700000F0000000000 = .ok (.drawpixel 5 7 0x0F00) := by decide
theorem test_decode_drawline : decode 0x11000003020FFF00000000 = .ok (.drawline 0 0 3 2 0x0FFF) := by decide
theorem test_decode_fillrect : decode 0x12020302020FF000000000 = .ok (.fillrect 2 3 2 2 0x0FF0) := by decide
theorem test_decode_drawrect : decode 0x130A0A03020F0000000000 = .ok (.drawrect 10 10 3 2 0x0F00) := by decide
theorem test_decode_clear : decode 0x1400000000000F00000000 = .ok (.clear 0x000F) := by decide
theorem test_decode_drawbitmapb : decode 0x1532280302000000000010 = .ok (.drawbitmapb 50 40 3 2 0x0010) := by decide
theorem test_decode_drawbitmapt : decode 0x1632280302000000000010 = .ok (.drawbitmapt 50 40 3 2 0x0010) := by decide
theorem test_decode_drawstring : decode 0x205A4800000FF0000F0040 = .ok (.drawstring 90 72 0x0FF0 0x000F 0x0040) := by decide
theorem test_decode_zero : decode 0 = .error (.illegalOpcode 0) := by decide
theorem test_decode_illegal : decode 0xFF01020304123456789ABC = .error (.illegalOpcode 0xFF) := by decide
theorem test_decode_bytes :
    decodeBytes [0x02, 0x30, 0, 0, 0, 0, 0, 0, 0, 0, 0, 0x77] = .ok (.setcontrast 48, [0x77]) := by decide
theorem test_decode_truncated : decodeBytes [0x02, 0x30] = .error (.truncated 2) := by decide
theorem test_encode_drawline : encode (.drawline 0 0 3 2 0x0FFF) = 0x11000003020FFF00000000 := by decide
theorem test_encode_drawstring : encode (.drawstring 90 72 0x0FF0 0x000F 0x0040) = 0x205A4800000FF0000F0040 := by decide

/-! ### One step of each command -/

/-- The reset state with one word to take. -/
def withWord (w : CmdWord) : State := { State.reset with prog := [w] }

/-- The trace, `ill` and the index after one step. -/
def outcome (s : State) : Option (List Event × Bool × Nat) :=
  match step s with
  | .next t => some (t.trace, t.ill, t.k)
  | .fault _ => none
  | .refused _ => none

/-- What a completed legal command leaves, from reset. -/
def completes (es : List Event) : Option (List Event × Bool × Nat) := some (es, false, 1)

/-- E1 (C1 corrects the source's last byte). -/
theorem test_setwindow_full : outcome (withWord 0x0100006550000000000000) =
    completes (commandBurst [0xF0, 0x06, 0x10, 0x20, 0x30, 0xF5, 0x0F, 0x1C, 0x2F, 0x34]) := by decide

/-- E5: column and row wrap. -/
theorem test_setwindow_wraps : outcome (withWord 0x017DFF0102000000000000) =
    completes (commandBurst [0xF0, 0x00, 0x10, 0x2F, 0x3F, 0xF5, 0x01, 0x10, 0x20, 0x30]) := by decide

/-- E11: out of range, sent as it is. -/
theorem test_setcontrast : outcome (withWord 0x02C8000000000000000000) =
    completes (commandBurst [0xF4, 0xBC, 0xA8]) := by decide

/-- E13, with junk in every reserved bit. -/
theorem test_setlcdon : outcome (withWord 0x03FF112233445566778899) = completes (commandBurst [0xF0, 0x81]) := by decide

/-- E14. -/
theorem test_inversescreen : outcome (withWord 0x0400000000000000000000) = completes (commandBurst [0xF0, 0x91]) := by decide

/-- E18. -/
theorem test_setstartline : outcome (withWord 0x054F000000000000000000) =
    completes (commandBurst [0xF0, 0x4F, 0x54]) := by decide

/-- E22: height 0, the end row before the start; for any tags. -/
theorem test_setinverselines : outcome (withWord 0x0605000000000000000000) =
    completes (cmdSession [0xF5, tagged Config.ilTagYsLo 5, tagged Config.ilTagYsHi 0, 0xF5, tagged Config.ilTagYeLo 4,
      tagged Config.ilTagYeHi 0, 0xF5, tagged Config.ilTagMode 0]) := rfl

/-- L1. -/
theorem test_drawpixel : outcome (withWord 0x10050700000F0000000000) =
    completes (commandBurst [0xF0, 0x00, 0x11, 0x27, 0x30, 0xF5, 0x01, 0x11, 0x27, 0x30] ++ dataBurst [0x0F, 0x00]) := by
  decide

/-- L4: horizontal, given right to left. -/
theorem test_drawline_horizontal : outcome (withWord 0x110703040300F000000000) =
    completes (commandBurst [0xF0, 0x0E, 0x10, 0x23, 0x30, 0xF5, 0x05, 0x11, 0x23, 0x30] ++
      dataBurst [0x00, 0xF0, 0x00, 0xF0, 0x00, 0xF0, 0x00, 0xF0]) := by decide

/-- L5: vertical, given bottom to top. -/
theorem test_drawline_vertical : outcome (withWord 0x11090C090A000F00000000) =
    completes (commandBurst [0xF0, 0x08, 0x11, 0x2A, 0x30, 0xF5, 0x09, 0x11, 0x2C, 0x30] ++
      dataBurst [0x00, 0x0F, 0x00, 0x0F, 0x00, 0x0F]) := by decide

/-- L16: swapped and steep, with the errors at each pixel. -/
theorem test_bresenham_steep : (bresenham 2 7 0 0).map (fun r => (r.x, r.y, r.err)) =
    [(0, 0, -3), (0, 1, -1), (1, 2, -6), (1, 3, -4), (1, 4, -2), (1, 5, 0), (2, 6, -5), (2, 7, -3)] := by decide

/-- L9: upwards. -/
theorem test_bresenham_up : linePoints 0 2 3 0 = [(0, 2), (1, 1), (2, 1), (3, 0)] := by decide

/-- F1. -/
theorem test_fillrect : outcome (withWord 0x12020302020FF000000000) =
    completes (commandBurst [0xF0, 0x0A, 0x10, 0x23, 0x30, 0xF5, 0x0D, 0x10, 0x24, 0x30] ++
      dataBurst [0x0F, 0xF0, 0x0F, 0xF0, 0x0F, 0xF0, 0x0F, 0xF0]) := by decide

/-- F2: zero width, an empty data session. -/
theorem test_fillrect_empty : outcome (withWord 0x12050500030FFF00000000) =
    completes (commandBurst [0xF0, 0x00, 0x11, 0x25, 0x30, 0xF5, 0x0F, 0x10, 0x27, 0x30] ++ dataBurst []) := by decide

/-- F4: the bottom row and the right column. -/
theorem test_drawrect : (rectEvents 10 10 3 2 0x0F00).drop 22 =
    commandBurst [0xF0, 0x0A, 0x11, 0x2B, 0x30, 0xF5, 0x0F, 0x11, 0x2B, 0x30] ++
      dataBurst [0x0F, 0x00, 0x0F, 0x00, 0x0F, 0x00] ++
    commandBurst [0xF0, 0x0A, 0x11, 0x2A, 0x30, 0xF5, 0x0B, 0x11, 0x2B, 0x30] ++ dataBurst [0x0F, 0x00, 0x0F, 0x00] ++
    commandBurst [0xF0, 0x0E, 0x11, 0x2A, 0x30, 0xF5, 0x0F, 0x11, 0x2B, 0x30] ++ dataBurst [0x0F, 0x00, 0x0F, 0x00] := by
  decide

/-- F3: the window of the whole screen and the first pair. -/
theorem test_clear : (outcome (withWord 0x1400000000000F00000000)).map (fun p => p.1.take 17) =
    some (commandBurst [0xF0, 0x06, 0x10, 0x20, 0x30, 0xF5, 0x0F, 0x1C, 0x2F, 0x34] ++ .ce true :: txs [0x00, 0x0F]) := by
  decide

/-- A state whose pixel sources hold F6's bitmap at 0x0200 in `PIXTAB` and its reverse in `PIXBUF`, with one word. -/
def withPixels (w : CmdWord) : State :=
  { withWord w with mem := { State.reset.mem with
      pixtab := [(0x200, 0x0F00), (0x201, 0x00F0), (0x202, 0x000F), (0x203, 0x0FFF)],
      pixbuf := [(0x0000, 0x1234), (0xFFFF, 0x0FFF)] } }

/-- F6. -/
theorem test_drawbitmapt : outcome (withPixels 0x1600000202000000000200) =
    completes (commandBurst [0xF0, 0x06, 0x10, 0x20, 0x30, 0xF5, 0x09, 0x10, 0x21, 0x30] ++
      dataBurst [0x0F, 0x00, 0x00, 0xF0, 0x00, 0x0F, 0x0F, 0xFF]) := by decide

/-- R30 and R105: the address wraps from 0xFFFF to 0, and a word's high bits are sent unmasked. -/
theorem test_drawbitmapb_wraps : outcome (withPixels 0x150000020100000000FFFF) =
    completes (commandBurst [0xF0, 0x06, 0x10, 0x20, 0x30, 0xF5, 0x09, 0x10, 0x20, 0x30] ++
      dataBurst [0x0F, 0xFF, 0x12, 0x34]) := by decide

/-- A state with the fixture glyphs of T1 and T4 and their strings, with one word. -/
def withText (w : CmdWord) : State :=
  { withWord w with mem := { State.reset.mem with
      font := [(198, 1), (199, 0xA5), (2042, 1), (2043, 0x80)], text := [(0, 0x1F), (0x100, 0x41)] } }

/-- T1. -/
theorem test_drawstring : outcome (withText 0x200A1400000FFF00000100) =
    completes (commandBurst [0xF0, 0x0A, 0x11, 0x24, 0x31, 0xF5, 0x0B, 0x11, 0x2B, 0x31] ++
      dataBurst [0x0F, 0xFF, 0, 0, 0x0F, 0xFF, 0, 0, 0, 0, 0x0F, 0xFF, 0, 0, 0x0F, 0xFF] ++
      commandBurst [0xF0, 0x0C, 0x11, 0x24, 0x31, 0xF5, 0x0D, 0x11, 0x2B, 0x31] ++
      dataBurst [0, 0, 0, 0, 0, 0, 0, 0, 0, 0, 0, 0, 0, 0, 0, 0]) := by decide

/-- T4: code 31 reads the wrapped font address 2042. -/
theorem test_drawstring_low_code : (match step (withText 0x20FA0000000FFF00000000) with
    | .next t => some t.reads
    | .fault _ => none
    | .refused _ => none) = some [(.text, 0), (.font, 2042), (.font, 2043), (.text, 1)] := by decide

/-- X1: nothing emitted, `ill` set, and the word is done with. -/
theorem test_illegal : outcome (withWord 0) = some ([], true, 1) := by decide

/-- X4: a legal command never clears `ill`. -/
theorem test_illegal_sticky : (outcome { withWord 0x0230000000000000000000 with ill := true }).map (fun p => p.2) =
    some (true, 1) := by decide

/-- R116: a reset with the lines in a command session. -/
theorem test_reset_lines : ({ State.reset with ce := true, rs := .command, ill := true } : State).assertReset.trace =
    [.ce false, .rs .data] := by decide

/-- R117: three actions into SETCONTRAST. -/
theorem test_reset_during : ((withWord 0x0230000000000000000000).resetDuring 3).trace =
    [.rs .command, .ce true, .tx 0xF4, .ce false, .rs .data] := by decide

/-- R41: the view of F1. -/
theorem test_view : pixelView State.reset.mem (.fillrect 2 3 2 2 0x0FF0) (fill 2 3 2 2 0x0FF0) =
    some [⟨2, 3, 0xFF0⟩, ⟨3, 3, 0xFF0⟩, ⟨2, 4, 0xFF0⟩, ⟨3, 4, 0xFF0⟩] := by decide

/-- F2's window is none of the screen: no view. -/
theorem test_view_empty : pixelView State.reset.mem (.fillrect 5 5 0 3 0x0FFF) (fill 5 5 0 3 0x0FFF) = none := by decide

/-- R41: column 128 breaks the window invariant, though its bytes are those of column 0. -/
theorem test_view_wraps : pixel 128 0 0x0F00 = pixel 0 0 0x0F00 ∧
    pixelView State.reset.mem (.drawpixel 128 0 0x0F00) (pixel 128 0 0x0F00) = none ∧
    pixelView State.reset.mem (.drawpixel 0 0 0x0F00) (pixel 0 0 0x0F00) = some [⟨0, 0, 0xF00⟩] := by decide

/-- R41: a later write to the same pixel replaces an earlier one, other pixels keep theirs. -/
theorem test_later_write : colorAt 1 2 [⟨1, 2, 0xF00⟩, ⟨1, 2, 0x0F0⟩, ⟨2, 1, 0x00F⟩] = some 0x0F0 ∧
    colorAt 1 1 [⟨1, 2, 0xF00⟩] = none := by decide

/-- A state with several words presented. -/
def withWords (ws : List CmdWord) : State := { State.reset with prog := ws }

/-- R42 (a): after SETWINDOW the window stays through a command of another kind. -/
theorem test_window_persists :
    Sink.start.afterSteps (withWords [0x0110203004000000000000, 0x0230000000000000000000]) 2 =
      some ⟨some ⟨16, 32, 48, 4⟩, true, []⟩ := by decide

/-- R42 (a), R124: after DRAWPIXEL the window is still the pixel's, but no other data session may fill it. -/
theorem test_window_left : Sink.start.afterSteps (withWords [0x10050700000F0000000000, 0x0230000000000000000000]) 2 =
    some ⟨some ⟨5, 7, 1, 1⟩, false, [⟨5, 7, 0xF00⟩]⟩ := by decide

/-- R42 (c): FILLRECT of 2 × 1 pixels is cut inside its window command, between its two sessions, at a whole pair, and after
its last pair. -/
theorem test_cut_bursts :
    [5, 14, 17, 19].map (fun n => (Sink.start.afterResetDuring (withWord 0x12020302010F0000000000) n).map (·.writes)) =
      [none, some [], none, some [⟨2, 3, 0xF00⟩, ⟨3, 3, 0xF00⟩]] := by decide

/-- R126 (U2): the reaction to a contrast of 200 is undefined, and so is what the controller is from there on. -/
theorem test_reserved_operand : Sink.start.afterSteps (withWords [0x02C8000000000000000000]) 1 = none := by decide

/-- R23: a reset before SETCONTRAST 200 has opened its session leaves the controller as it was; after its last byte the
reserved value has been heard. -/
theorem test_reset_before_reserved : [0, 1, 5].map (Sink.start.afterResetDuring (withWord 0x02C8000000000000000000)) =
    [some Sink.start, some Sink.start, none] := by decide

/-- R126: a bitmap word with a high bit set breaks the host's duties. -/
theorem test_duties_bitmap : dutiesOk ⟨[], [], [(0x10, 0x0FFF), (0x11, 0x1000)], []⟩ (.drawbitmapb 0 0 1 1 0x10) = true ∧
    dutiesOk ⟨[], [], [(0x10, 0x0FFF), (0x11, 0x1000)], []⟩ (.drawbitmapb 0 0 2 1 0x10) = false := by decide

/-- R15: `busy` is bit 0 and `ill` bit 1. -/
theorem test_status : ({ State.reset with ill := true } : State).status = 2 ∧
    ({ State.reset with busy := true } : State).status = 1 := by decide

/-- R55's example, with a comment. -/
theorem test_assemble : (assembleLine ⟨[], 0⟩ "DRAWLINE 0, 0, 3, 2, WHITE ; a line".toList).map (·.2) =
    some (some 0x11000003020FFF00000000) := by decide

/-- R58: a string is placed with its terminator at the free address. -/
theorem test_assemble_string : assembleLine ⟨[], 0x40⟩ "DRAWSTRING 90, 72, YELLOW, 0x00F, \"Hi\"".toList =
    some (⟨[(0x40, 0x48), (0x41, 0x69)], 0x43⟩, some 0x205A4800000FF0000F0040) := by decide

/-- How the host places a row's word. -/
theorem test_fetch_word : step (State.reset.withFetchWord 88 0x0311000000000000000000) =
    exec (.setlcdon true) (State.reset.withFetchWord 88 0x0311000000000000000000) := rfl

/-! ### Every statement's hypotheses are met

One theorem for each statement that has hypotheses, and one for each of its clauses at the ends of its range. -/

theorem witness_EncodeOfDecode : decode 0x03FF112233445566778899 = .ok (.setlcdon true) := by decide

theorem witness_ReservedBitsIgnored : decode 0x0301000000000000000000 = .ok (.setlcdon true) ∧
    0x03FF112233445566778899 &&& (Instr.setlcdon true).usedMask = 0x0301000000000000000000 &&& (Instr.setlcdon true).usedMask := by
  decide

theorem witness_SerialFormDecodes : decode 0x0230000000000000000000 = .ok (.setcontrast 48) ∧
    decode 0xFF01020304123456789ABC = .error (.illegalOpcode 0xFF) := by decide

theorem witness_StepRunsDecoded : (withWord 0x0230000000000000000000).busy = false ∧
    (withWord 0x0230000000000000000000).prog[(withWord 0x0230000000000000000000).k]? = some 0x0230000000000000000000 ∧
    decode 0x0230000000000000000000 = .ok (.setcontrast 48) := by decide

/-- Each range of R50's list at its ends. -/
theorem witness_IllegalOpcodeSetsIll : (withWord 0).busy = false ∧ (withWord 0).prog[(withWord 0).k]? = some 0 ∧
    [0x00, 0x07, 0x0F, 0x17, 0x1F, 0x21, 0xFF].map (fun op => (opField (BitVec.ofNat 88 (op * 2 ^ 80))).toNat) =
      [0x00, 0x07, 0x0F, 0x17, 0x1F, 0x21, 0xFF] := by decide

/-- A state in which a string is in progress. -/
def busyState : State := { withText 0 with busy := true }

theorem witness_BusyWordWaits : busyState.busy = true := rfl

theorem witness_IndexAdvancesByOne_busy : (∃ t, step busyState = .next t) ∧ busyState.busy = true := ⟨⟨_, rfl⟩, rfl⟩

theorem witness_IndexAdvancesByOne_word : (∃ t, step (withWord 0) = .next t) ∧ (withWord 0).prog[(withWord 0).k]? ≠ none :=
  ⟨⟨_, rfl⟩, by decide⟩

theorem witness_IndexAdvancesByOne_idle : State.reset.busy = false ∧ State.reset.prog[State.reset.k]? = none := by decide

/-- An illegal opcode next to a legal one on either side. -/
theorem witness_IllegalWordsNamed : [0x00, 0x07, 0x0F, 0x17, 0x21].map (fun op => decode (BitVec.ofNat 88 (op * 2 ^ 80))) =
    [0x00, 0x07, 0x0F, 0x17, 0x21].map (fun op => .error (.illegalOpcode (BitVec.ofNat 8 op))) := by decide

/-- For the statements about any step: IllSticky, MemoriesNeverWritten, ResetDuringCutsTrace, and, with idle lines,
DataFollowsWindow and CommandSessionsOpenWithGroupByte. -/
theorem witness_step : (∃ t, step (withWord 0x10050700000F0000000000) = .next t) ∧
    (withWord 0x10050700000F0000000000).ce = false ∧ (withWord 0x10050700000F0000000000).rs = .data := ⟨⟨_, rfl⟩, rfl, rfl⟩

theorem witness_ScratchBeforeIsNeverRead : (withWord 0x0230000000000000000000).busy = false ∧
    ∃ t : State, Host.Core.run Sys2Proof.core 2 (withWord 0x0230000000000000000000) = .next t := ⟨rfl, _, rfl⟩

theorem witness_ReadsByCommand : ∃ t, exec (.drawstring 10 20 0 0 0x100) (withText 0) = .next t := ⟨_, rfl⟩

theorem witness_StepKeepsSafe : Safe (withWord 0x0230000000000000000000) ∧
    ∃ t, step (withWord 0x0230000000000000000000) = .next t :=
  ⟨⟨rfl, rfl, rfl, rfl, rfl, by decide, by decide, by decide⟩, _, rfl⟩

theorem witness_HostMovesKeepSafe : Safe (withText 0) := ⟨rfl, rfl, rfl, rfl, rfl, by decide, by decide, by decide⟩

/-- The largest and the smallest window of the screen. -/
theorem witness_windowOk : windowOk (0#8).toNat (0#8).toNat (101#8).toNat (80#8).toNat = true ∧
    windowOk (100#8).toNat (79#8).toNat (1#8).toNat (1#8).toNat = true := by decide

theorem witness_SetlcdonCompletes : opField 0x03FF112233445566778899 = 0x03 := by decide

theorem witness_InversescreenCompletes : opField 0x0400000000000000000000 = 0x04 := by decide

theorem witness_ColorRoundTrip : (0x0FFF#16).extractLsb' 12 4 = 0 := by decide

theorem witness_VerticalLineCompletes : (0#8) ≠ 255#8 := by decide

/-- For every statement about the Bresenham path: the shallowest, the steepest and a diagonal line. -/
theorem witness_bresenham : ((0#8) ≠ 1#8 ∧ (0#8) ≠ 255#8) ∧ ((255#8) ≠ 0#8 ∧ (3#8) ≠ 4#8) ∧ ((0#8) ≠ 255#8 ∧ (0#8) ≠ 255#8) := by
  decide

theorem witness_BresenhamRegisterRanges : (0#8) ≠ 1#8 ∧ (0#8) ≠ 1#8 ∧
    (⟨0, 0, 1, 1, 1, 1, 1, 1, 0⟩ : LineRegs) ∈ bresenham 0 0 1 1 := by decide

theorem witness_BresenhamWithinHalfPixel : (0#8) ≠ 2#8 ∧ (0#8) ≠ 3#8 ∧ (1, 1) ∈ linePoints 0 0 3 2 := by decide

theorem witness_BresenhamMirror : (0 : Int) < 3 ∧ (0 : Int) < 2 := by decide

theorem witness_BitmapSourcesAgree : ∀ i < (2#8).toNat * (2#8).toNat,
    State.reset.mem.pixRead .pixbuf (0xFFFE#16 + BitVec.ofNat 16 i) = State.reset.mem.pixRead .pixtab (0xFFFE#16 + BitVec.ofNat 16 i) := by
  decide

/-- Both sources' duties, with words other than zero. -/
theorem witness_BitmapPicture_duties :
    windowOk (100#8).toNat (78#8).toNat (1#8).toNat (2#8).toNat = true ∧
    dutiesOk ⟨[], [], [(0xFFFF, 0x0FFF)], [(0, 0x0F0F)]⟩ (.drawbitmapb 100 78 1 2 0xFFFF) = true ∧
    dutiesOk ⟨[], [], [(0xFFFF, 0x0FFF)], [(0, 0x0F0F)]⟩ (.drawbitmapt 100 78 1 2 0xFFFF) = true := by decide

/-- Both clauses at both ends. -/
theorem witness_GlyphBaseFormula : (32 ≤ (32#8).toNat ∧ 32 ≤ (255#8).toNat) ∧ (1 ≤ (1#8).toNat ∧ (31#8).toNat ≤ 31) := by decide

theorem withText_idle (w : CmdWord) : (withText w).Idle := ⟨rfl, rfl, rfl⟩

/-- For DrawstringCompletes and DrawstringCounts: a string of one character and an empty one. -/
theorem witness_string : (withText 0).Idle ∧ textString (withText 0).mem 0x100 = some [0x41] ∧
    textString (withText 0).mem 5 = some [] := ⟨withText_idle 0, by decide, by decide⟩

/-- At the right and the lower edge of the screen. -/
theorem witness_DrawstringPicture : (withText 0).Idle ∧ textString (withText 0).mem 0x100 = some [0x41] ∧
    stringOk (withText 0).mem 99 [0x41] = true ∧ (72#8).toNat + 8 ≤ 80 :=
  ⟨withText_idle 0, by decide, by decide, by decide⟩

/-- A space with the value 1 at each of `n` addresses from `b` on. -/
def onesFrom (b : Nat) : Nat → Cells 8
  | 0 => []
  | n + 1 => (b, 1) :: onesFrom (b + 1) n

theorem readCell_onesFrom (n b a : Nat) (hb : b ≤ a) (ha : a < b + n) : readCell (onesFrom b n) a = 1 := by
  induction n generalizing b with
  | zero => omega
  | succ n ih =>
    by_cases h : a = b
    · simp [onesFrom, readCell, h]
    · simp only [onesFrom, readCell, h, if_false]
      exact ih (b + 1) (by omega) (by omega)

theorem witness_UnterminatedStringNeverEnds : ∃ s : State, ∀ a : Addr, readCell s.mem.text a.toNat ≠ 0 := by
  refine ⟨{ State.reset with mem := { State.reset.mem with text := onesFrom 0 65536 } }, fun a => ?_⟩
  have h := readCell_onesFrom 65536 0 a.toNat (Nat.zero_le _) (by have := a.isLt; omega)
  simp only [h]
  decide

theorem witness_DrawlinePicture : pixelOk (0#8).toNat (0#8).toNat = true ∧ pixelOk (100#8).toNat (79#8).toNat = true := by decide

theorem witness_ByteCosts : (withText 0).Idle ∧ byteCost (withText 0).mem (.drawstring 10 20 0 0 0x100) = some 52 ∧
    ∃ t, exec (.drawstring 10 20 0 0 0x100) (withText 0) = .next t := ⟨withText_idle 0, by decide, _, rfl⟩

theorem witness_HostWritesReadBack : (withText 0).mem.wf = true := by decide

end Sys2Proof.Tests
end

/-! SUPPORT. The rules of the step and of its operations: one equation per case of `step`, and what completing, going on with a
string and running a command keep (10_state.md R15, R16, R20). -/

namespace Sys2Proof.Machine

/-! ### The cases of a step -/

theorem step_of_busy {s : State} (hb : s.busy = true) : step s = .next (s.runString s.scratch) := by
  simp [step, hb]

theorem step_of_noWord {s : State} (hb : s.busy = false) (hw : s.prog[s.k]? = none) : step s = .next s := by
  simp [step, State.fetchWord, hb, hw]

theorem step_of_word {s : State} {w : CmdWord} (hb : s.busy = false) (hw : s.prog[s.k]? = some w) :
    step s = takeWord w s := by
  simp [step, State.fetchWord, hb, hw]

theorem takeWord_of_ok {w : CmdWord} {i : Instr} (s : State) (hd : decode w = .ok i) : takeWord w s = exec i s := by
  simp [takeWord, hd]

theorem takeWord_of_error {w : CmdWord} {e : DecodeError} (s : State) (hd : decode w = .error e) :
    takeWord w s = .next s.takeIllegal := by
  simp [takeWord, hd]

/-- A run of one step more goes on from the state that step answers. -/
theorem run_succ_of_step {M : Host.Core} {s t : M.State} (n : Nat) (h : M.step s = .next t) :
    M.run (n + 1) s = M.run n t := by
  simp only [Host.Core.run, h]

/-! ### Going on with a string -/

theorem runString_of_ended {s : State} {r : Scratch}
    (h : (drawChars s.mem (Config.spaceSize .text) r).ended = true) :
    s.runString r = s.complete (drawChars s.mem (Config.spaceSize .text) r).acts := by
  simp [State.runString, h]

theorem runString_of_not_ended {s : State} {r : Scratch}
    (h : (drawChars s.mem (Config.spaceSize .text) r).ended = false) :
    s.runString r = { s.perform (drawChars s.mem (Config.spaceSize .text) r).acts with
      busy := true, scratch := (drawChars s.mem (Config.spaceSize .text) r).regs } := by
  simp [State.runString, h]

/-- A string does not look at the words presented, and leaves them (R16). -/
theorem runString_presentWord (s : State) (w : CmdWord) (r : Scratch) :
    (s.presentWord w).runString r = (s.runString r).presentWord w := by
  cases h : (drawChars s.mem (Config.spaceSize .text) r).ended with
  | true => rw [runString_of_ended h, runString_of_ended (s := s.presentWord w) h]; rfl
  | false => rw [runString_of_not_ended h, runString_of_not_ended (s := s.presentWord w) h]; rfl

/-- A string advances the command index exactly when it ends (R20, R97). -/
theorem runString_k (s : State) (r : Scratch) :
    (s.runString r).k = if (s.runString r).busy then s.k else s.k + 1 := by
  obtain ⟨run, -, -, hrun⟩ | ⟨run, -, -, hrun⟩ := runString_cases s r
  · simp [hrun]
  · simp [hrun]

/-! ### What no operation changes -/

theorem Keeps.complete (s : State) (acts : List Action) : Keeps s (s.complete acts) := ⟨rfl, rfl, rfl⟩

theorem Keeps.runString (s : State) (r : Scratch) : Keeps s (s.runString r) := by
  obtain ⟨run, -, -, hrun⟩ | ⟨run, -, -, hrun⟩ := runString_cases s r
  · rw [hrun]; exact .complete s run.acts
  · rw [hrun]; exact ⟨rfl, rfl, rfl⟩

/-- A command leaves `ill`, the memories and the words presented as they are (R15, R31). -/
theorem Keeps.exec {i : Instr} {s t : State} (h : exec i s = .next t) : Keeps s t := by
  obtain ⟨acts, -, rfl⟩ | ⟨r, rfl⟩ := exec_cases h
  · exact .complete s acts
  · exact .runString s r

/-- A command advances the command index by 1 unless it is left in progress (R20). -/
theorem exec_k {i : Instr} {s t : State} (h : exec i s = .next t) : t.k = if t.busy then s.k else s.k + 1 := by
  obtain ⟨acts, -, rfl⟩ | ⟨r, rfl⟩ := exec_cases h
  · simp
  · exact runString_k s r

/-! ### The status register -/

theorem status_bit_zero (s : State) : s.status.getLsbD 0 = s.busy := by
  cases hill : s.ill <;> cases hbusy : s.busy <;> simp [State.status, hill, hbusy]

theorem status_bit_one (s : State) : s.status.getLsbD 1 = s.ill := by
  cases hill : s.ill <;> cases hbusy : s.busy <;> simp [State.status, hill, hbusy]

end Sys2Proof.Machine

/-! SUPPORT. R18 as a relation between two runs. A string in progress reads five of the scratch registers before it writes
them: `X`, `Y`, `FG`, `BG` and `PTR`. Two states that differ in other scratch registers only, or in any of them while idle,
take steps that leave them so. -/

namespace Sys2Proof.Machine

/-- Scratch registers that agree in those the loop of DRAWSTRING reads before it writes them (R94). -/
structure LiveAgree (r q : Scratch) : Prop where
  x : r.x = q.x
  y : r.y = q.y
  fg : r.fg = q.fg
  bg : r.bg = q.bg
  ptr : r.ptr = q.ptr

/-- States that differ in nothing but the model's own counter and scratch registers that no rule reads: any of them while
idle (R18), and all but DRAWSTRING's five while a string is in progress. -/
structure Alike (s u : State) : Prop where
  ce : s.ce = u.ce
  rs : s.rs = u.rs
  busy : s.busy = u.busy
  ill : s.ill = u.ill
  mem : s.mem = u.mem
  prog : s.prog = u.prog
  k : s.k = u.k
  log : s.log = u.log
  live : s.busy = true → LiveAgree s.scratch u.scratch

/-! ### A string reads only the live registers -/

theorem columnStream_congr {r q : Scratch} (hx : r.x = q.x) (hy : r.y = q.y) (cs : List Color) :
    columnStream r cs = columnStream q cs := by
  simp only [columnStream, hx, hy]

theorem drawColumn_acts_congr {r q : Scratch} (h : LiveAgree r q) (hgb : r.gb = q.gb) (m : Memory) (col : Byte) :
    (drawColumn m col r).acts = (drawColumn m col q).acts := by
  simp only [drawColumn, columnStream_congr h.x h.y, h.fg, h.bg, hgb]

theorem LiveAgree.drawColumn {r q : Scratch} (h : LiveAgree r q) (m : Memory) (col : Byte) :
    LiveAgree (drawColumn m col r).regs (drawColumn m col q).regs :=
  ⟨congrArg (· + 1) h.x, h.y, h.fg, h.bg, h.ptr⟩

theorem LiveAgree.drawColumns {r q : Scratch} (h : LiveAgree r q) (m : Memory) (n : Nat) (col : Byte) :
    LiveAgree (drawColumns m n col r).regs (drawColumns m n col q).regs := by
  obtain ⟨hx, hy, hfg, hbg, hptr, -⟩ := drawColumns_regs m n col r
  obtain ⟨kx, ky, kfg, kbg, kptr, -⟩ := drawColumns_regs m n col q
  exact ⟨by rw [hx, kx, h.x], by rw [hy, ky, h.y], by rw [hfg, kfg, h.fg], by rw [hbg, kbg, h.bg],
    by rw [hptr, kptr, h.ptr]⟩

theorem drawColumns_acts_congr {r q : Scratch} (h : LiveAgree r q) (hgb : r.gb = q.gb) (m : Memory) (n : Nat) (col : Byte) :
    (drawColumns m n col r).acts = (drawColumns m n col q).acts := by
  induction n generalizing col r q with
  | zero => rfl
  | succ n ih =>
    simp only [drawColumns]
    rw [drawColumn_acts_congr h hgb, ih (h.drawColumn m col) hgb]

/-- Fetching a glyph sets `GB` and `GW` from the code alone, so they need not agree before it (R93). -/
theorem LiveAgree.fetchGlyph {r q : Scratch} (h : LiveAgree r q) (m : Memory) (ch : Byte) :
    LiveAgree (fetchGlyph m ch r).regs (fetchGlyph m ch q).regs :=
  ⟨h.x, h.y, h.fg, h.bg, congrArg (· + 1) h.ptr⟩

theorem drawSpacing_acts_congr {r q : Scratch} (h : LiveAgree r q) : (drawSpacing r).acts = (drawSpacing q).acts := by
  simp only [drawSpacing, columnStream_congr h.x h.y, h.bg]

theorem drawChar_acts_congr {r q : Scratch} (h : LiveAgree r q) (m : Memory) (ch : Byte) :
    (drawChar m ch r).acts = (drawChar m ch q).acts := by
  have hg := h.fetchGlyph m ch
  have hcols := drawColumns_acts_congr hg rfl m (m.fontRead (glyphBase ch)).toNat 0
  have hspace := drawSpacing_acts_congr (hg.drawColumns m (m.fontRead (glyphBase ch)).toNat 0)
  exact congrArg₂ (· ++ ·) (congrArg (_ ++ ·) hcols) hspace

theorem LiveAgree.drawChar {r q : Scratch} (h : LiveAgree r q) (m : Memory) (ch : Byte) :
    LiveAgree (drawChar m ch r).regs (drawChar m ch q).regs := by
  obtain ⟨hx, hy, hfg, hbg, hptr⟩ := drawChar_regs m ch r
  obtain ⟨kx, ky, kfg, kbg, kptr⟩ := drawChar_regs m ch q
  exact ⟨by rw [hx, kx, h.x], by rw [hy, ky, h.y], by rw [hfg, kfg, h.fg], by rw [hbg, kbg, h.bg],
    by rw [hptr, kptr, h.ptr]⟩

/-- Passes of DRAWSTRING's loop from agreeing live registers perform the same actions, meet the terminator alike, and leave
agreeing live registers. -/
theorem drawChars_congr {r q : Scratch} (h : LiveAgree r q) (m : Memory) (n : Nat) :
    (drawChars m n r).acts = (drawChars m n q).acts ∧ (drawChars m n r).ended = (drawChars m n q).ended ∧
      LiveAgree (drawChars m n r).regs (drawChars m n q).regs := by
  induction n generalizing r q with
  | zero => exact ⟨rfl, rfl, h⟩
  | succ n ih =>
    simp only [drawChars, ← h.ptr]
    split
    · exact ⟨rfl, rfl, ⟨h.x, h.y, h.fg, h.bg, rfl⟩⟩
    · obtain ⟨hacts, hended, hlive⟩ := ih (h.drawChar m (m.textRead r.ptr))
      exact ⟨by rw [drawChar_acts_congr h, hacts], hended, hlive⟩

/-! ### Alike states stay alike -/

theorem Alike.complete {s u : State} (h : Alike s u) (acts : List Action) : Alike (s.complete acts) (u.complete acts) where
  ce := by simp [h.ce]
  rs := by simp [h.rs]
  busy := rfl
  ill := h.ill
  mem := h.mem
  prog := h.prog
  k := by simp [h.k]
  log := by simp [h.log]
  live := fun hb => absurd hb (by simp)

theorem Alike.runString {s u : State} (h : Alike s u) {r q : Scratch} (hr : LiveAgree r q) :
    Alike (s.runString r) (u.runString q) := by
  obtain ⟨hacts, hended, hlive⟩ := drawChars_congr hr u.mem (Config.spaceSize .text)
  cases he : (drawChars u.mem (Config.spaceSize .text) q).ended with
  | true =>
    rw [runString_of_ended (h.mem ▸ hended.trans he), runString_of_ended he, h.mem, hacts]
    exact h.complete _
  | false =>
    rw [runString_of_not_ended (h.mem ▸ hended.trans he), runString_of_not_ended he, h.mem, hacts]
    exact ⟨by simp [h.ce], by simp [h.rs], rfl, h.ill, h.mem, h.prog, h.k, by simp [h.log], fun _ => hlive⟩

theorem Alike.setIll {s u : State} (h : Alike s u) : Alike s.setIll u.setIll :=
  ⟨h.ce, h.rs, h.busy, rfl, h.mem, h.prog, h.k, h.log, h.live⟩

theorem Alike.takeIllegal {s u : State} (h : Alike s u) : Alike s.takeIllegal u.takeIllegal := h.setIll.complete []

/-- A command does the same from alike states: its actions depend on its operands and the memories, and DRAWSTRING sets the
live registers before it reads them (R94). -/
theorem Alike.exec {s u : State} (h : Alike s u) (i : Instr) :
    ∃ t v, exec i s = .next t ∧ exec i u = .next v ∧ Alike t v := by
  cases i with
  | setwindow x y width height => exact ⟨_, _, exec_setwindow .., exec_setwindow .., h.complete _⟩
  | setcontrast contrast => exact ⟨_, _, exec_setcontrast .., exec_setcontrast .., h.complete _⟩
  | setlcdon on => exact ⟨_, _, exec_setlcdon .., exec_setlcdon .., h.complete _⟩
  | inversescreen inverse => exact ⟨_, _, exec_inversescreen .., exec_inversescreen .., h.complete _⟩
  | setstartline line => exact ⟨_, _, exec_setstartline .., exec_setstartline .., h.complete _⟩
  | setinverselines y height mode => exact ⟨_, _, exec_setinverselines .., exec_setinverselines .., h.complete _⟩
  | drawpixel x y color => exact ⟨_, _, exec_drawpixel .., exec_drawpixel .., h.complete _⟩
  | drawline x1 y1 x2 y2 color => exact ⟨_, _, exec_drawline .., exec_drawline .., h.complete _⟩
  | fillrect x y width height color => exact ⟨_, _, exec_fillrect .., exec_fillrect .., h.complete _⟩
  | drawrect x y width height color => exact ⟨_, _, exec_drawrect .., exec_drawrect .., h.complete _⟩
  | clear color => exact ⟨_, _, exec_clear .., exec_clear .., h.complete _⟩
  | drawbitmapb x y width height ptr =>
    exact ⟨_, _, exec_drawbitmapb .., exec_drawbitmapb .., h.mem ▸ h.complete _⟩
  | drawbitmapt x y width height ptr =>
    exact ⟨_, _, exec_drawbitmapt .., exec_drawbitmapt .., h.mem ▸ h.complete _⟩
  | drawstring x y color background ptr =>
    exact ⟨_, _, exec_drawstring .., exec_drawstring .., h.runString ⟨rfl, rfl, rfl, rfl, rfl⟩⟩

theorem Alike.step {s u : State} (h : Alike s u) : ∃ t v, step s = .next t ∧ step u = .next v ∧ Alike t v := by
  cases hb : s.busy with
  | true => exact ⟨_, _, step_of_busy hb, step_of_busy (h.busy ▸ hb), h.runString (h.live hb)⟩
  | false =>
    have hbu : u.busy = false := h.busy ▸ hb
    cases hw : u.prog[u.k]? with
    | none => exact ⟨s, u, step_of_noWord hb (by rw [h.prog, h.k, hw]), step_of_noWord hbu hw, h⟩
    | some w =>
      rw [step_of_word hb (by rw [h.prog, h.k, hw]), step_of_word hbu hw]
      cases hd : decode w with
      | ok i => rw [takeWord_of_ok s hd, takeWord_of_ok u hd]; exact h.exec i
      | error e => exact ⟨_, _, takeWord_of_error s hd, takeWord_of_error u hd, h.takeIllegal⟩

/-- Runs of any length from alike states end in alike states. -/
theorem Alike.run {s u t : State} (h : Alike s u) (n : Nat) (hrun : Host.Core.run Sys2Proof.core n s = .next t) :
    ∃ v : State, Host.Core.run Sys2Proof.core n u = .next v ∧ Alike t v := by
  induction n generalizing s u with
  | zero => cases hrun; exact ⟨u, rfl, h⟩
  | succ n ih =>
    obtain ⟨s', u', hs, hu, h'⟩ := h.step
    obtain ⟨v, hv, halike⟩ := ih h' ((run_succ_of_step (M := core) n hs).symm.trans hrun)
    exact ⟨v, (run_succ_of_step (M := core) n hu).trans hv, halike⟩

end Sys2Proof.Machine

/-! SUPPORT. Each part of an operation keeps a state safe: actions whose events start and end idle (R21, R77), completing, a
string left in progress. -/

namespace Sys2Proof.Machine

theorem Safe.perform {s : State} (h : Safe s) {acts : List Action} (ha : IdleTrace (eventsOf acts)) :
    Safe (s.perform acts) where
  ceIdle := by simp [h.ceIdle, ha.ce]
  rsIdle := by simp [h.rsIdle, ha.rs]
  legal := by simp [busLegal_append, h.legal, h.ceTrace, h.rsTrace, h.ceIdle, h.rsIdle, ha.legal]
  ceTrace := by simp [h.ceTrace]
  rsTrace := by simp [h.rsTrace]
  memory := h.memory
  index := h.index
  inProgress := h.inProgress

theorem Safe.finish {s : State} (h : Safe s) (hk : s.k < s.prog.length) : Safe s.finish :=
  ⟨h.ceIdle, h.rsIdle, h.legal, h.ceTrace, h.rsTrace, h.memory, hk, fun hb => absurd hb (by simp)⟩

theorem Safe.leftInProgress {s : State} (h : Safe s) (hk : s.k < s.prog.length) (r : Scratch) :
    Safe { s with busy := true, scratch := r } :=
  ⟨h.ceIdle, h.rsIdle, h.legal, h.ceTrace, h.rsTrace, h.memory, h.index, fun _ => hk⟩

theorem Safe.setIll {s : State} (h : Safe s) : Safe s.setIll :=
  ⟨h.ceIdle, h.rsIdle, h.legal, h.ceTrace, h.rsTrace, h.memory, h.index, h.inProgress⟩

theorem Safe.complete {s : State} (h : Safe s) (hk : s.k < s.prog.length) {acts : List Action}
    (ha : IdleTrace (eventsOf acts)) : Safe (s.complete acts) :=
  (h.perform ha).finish hk

theorem Safe.runString {s : State} (h : Safe s) (hk : s.k < s.prog.length) (r : Scratch) : Safe (s.runString r) := by
  have ha := idleTrace_drawChars s.mem (Config.spaceSize .text) r
  obtain ⟨run, rfl, -, hrun⟩ | ⟨run, rfl, -, hrun⟩ := runString_cases s r
  · rw [hrun]; exact h.complete hk ha
  · rw [hrun]; exact (h.perform ha).leftInProgress hk _

theorem Safe.exec {i : Instr} {s t : State} (h : Safe s) (hk : s.k < s.prog.length) (ht : exec i s = .next t) :
    Safe t := by
  obtain ⟨acts, ha, rfl⟩ | ⟨r, rfl⟩ := exec_cases ht
  · exact h.complete hk ha
  · exact h.runString hk r

/-- A word is presented only at an index inside the program (R20). -/
theorem index_lt_of_fetchWord {s : State} {w : CmdWord} (h : s.fetchWord = some w) : s.k < s.prog.length :=
  (List.getElem?_eq_some_iff.mp h).1

end Sys2Proof.Machine

/-! The statements about the state and the step (10_state.md). -/

namespace Sys2Proof.Machine

/-- Settles O13, by the relation `Alike` carried along both runs: idle states that differ in scratch registers only are
alike, whatever the registers hold. -/
theorem scratchBeforeIsNeverRead : Obligations.ScratchBeforeIsNeverRead := by
  unfold Obligations.ScratchBeforeIsNeverRead
  intro s r c n t hb hrun
  have halike : Alike s { s with scratch := r, freeNext := c } :=
    ⟨rfl, rfl, rfl, rfl, rfl, rfl, rfl, rfl, fun hbusy => absurd hbusy (by simp [hb])⟩
  obtain ⟨u, hu, h⟩ := halike.run n hrun
  exact ⟨u, hu, h.log.symm, h.ce.symm, h.rs.symm, h.ill.symm, h.busy.symm, h.k.symm, h.mem.symm⟩

/-- Settles O16, by the four things a step can do. -/
theorem stepKeepsSafe : Obligations.StepKeepsSafe := by
  unfold Obligations.StepKeepsSafe
  intro s t hs hstep
  obtain ⟨hb, rfl⟩ | ⟨-, -, rfl⟩ | ⟨-, w, e, hw, -, rfl⟩ | ⟨-, w, i, hw, -, ht⟩ := step_cases hstep
  · exact hs.runString (hs.inProgress hb) _
  · exact hs
  · exact hs.setIll.complete (index_lt_of_fetchWord hw) .nil
  · exact hs.exec (index_lt_of_fetchWord hw) ht

/-- Settles O9: a busy step goes on with a string, which does not look at the words presented. -/
theorem busyWordWaits : Obligations.BusyWordWaits := by
  unfold Obligations.BusyWordWaits
  intro s w hb
  refine ⟨s.runString s.scratch, step_of_busy hb, ?_, (Keeps.runString s s.scratch).prog⟩
  rw [step_of_busy (s := s.presentWord w) hb, presentWord_scratch, runString_presentWord]

/-- Settles O11, by the four things a step can do. -/
theorem indexAdvancesByOne : Obligations.IndexAdvancesByOne := by
  unfold Obligations.IndexAdvancesByOne
  refine ⟨fun s t hstep hact => ?_, fun s hb hw => step_of_noWord hb hw⟩
  obtain ⟨-, rfl⟩ | ⟨hb, hw, -⟩ | ⟨-, w, e, -, -, rfl⟩ | ⟨-, w, i, -, -, ht⟩ := step_cases hstep
  · exact runString_k s s.scratch
  · rcases hact with hbusy | hword
    · exact absurd hbusy (by simp [hb])
    · exact absurd hw hword
  · rfl
  · exact exec_k ht

/-- Settles O12: of the four things a step can do, only taking an illegal word touches `ill`, and it sets it. -/
theorem illSticky : Obligations.IllSticky := by
  unfold Obligations.IllSticky
  refine ⟨fun s => ⟨status_bit_zero s, status_bit_one s⟩, fun s t hstep => ?_⟩
  obtain ⟨hb, rfl⟩ | ⟨-, hw, rfl⟩ | ⟨hb, w, e, hw, hd, rfl⟩ | ⟨-, w, i, hw, hd, ht⟩ := step_cases hstep
  · simp [(Keeps.runString s s.scratch).ill, hb]
  · have hw' : t.prog[t.k]? = none := hw
    simp [hw']
  · exact iff_of_true rfl (.inr ⟨hb, w, e, hw, hd⟩)
  · have hw' : s.prog[s.k]? = some w := hw
    simp [(Keeps.exec ht).ill, hw', hd]

/-- Settles O7. -/
theorem stepRunsDecoded : Obligations.StepRunsDecoded := by
  unfold Obligations.StepRunsDecoded
  intro s w i hb hw hd
  rw [step_of_word hb hw, takeWord_of_ok s hd]

/-- Settles O17. -/
theorem resetIsSafe : Obligations.ResetIsSafe := by
  unfold Obligations.ResetIsSafe
  exact ⟨rfl, rfl, rfl, rfl, rfl, reset_mem_wf, Nat.le_refl 0, fun hb => absurd hb Bool.false_ne_true⟩

/-- Settles O56: each value is a field of `State.reset`, or computed from its fields. -/
theorem resetValues : Obligations.ResetValues := by
  unfold Obligations.ResetValues
  exact ⟨rfl, rfl, rfl, rfl, rfl, rfl, rfl⟩

end Sys2Proof.Machine

/-! SUPPORT. The primitives of a session as the bursts of numbers that R61, R67, R68 and R70 write out. -/

namespace Sys2Proof.Machine

theorem txs_map_toNat (bytes : List Byte) : txs (bytes.map (·.toNat)) = bytes.map .tx := by
  simp [txs]

theorem cmdSession_eq_commandBurst (bytes : List Byte) : cmdSession bytes = commandBurst (bytes.map (·.toNat)) := by
  simp [cmdSession, commandBurst, txs_map_toNat]

theorem dataSession_eq_dataBurst (bytes : List Byte) : dataSession bytes = dataBurst (bytes.map (·.toNat)) := by
  simp [dataSession, dataBurst, txs_map_toNat]

theorem pair_map_toNat (c : Color) : (pair c).map (·.toNat) = pairNumbers c.toNat := by
  simp [pair, pairNumbers, colorHi_toNat, colorLo_toNat]

theorem windowBytes_map_toNat (xs ys xe ye : Byte) :
    (windowBytes xs ys xe ye).map (·.toNat) = windowNumbers xs.toNat ys.toNat xe.toNat ye.toNat := by
  simp [windowBytes, split, windowNumbers, tagged_toNat, lo_toNat, hi_toNat]

theorem mod256_toNat {v : Int} {n : Nat} (h : v % 256 = n % 256) : (mod256 v).toNat = n % 256 := by
  rw [mod256_nat n v h, BitVec.toNat_ofNat]

/-- The window primitive at any rectangle is R70's burst. -/
theorem emitWindow_eq_windowBurst (x y w h : Nat) : emitWindow x y w h = windowBurst x y w h := by
  have hxs : (mod256 (2 * (x : Int) + 6)).toNat = (2 * x + 6) % 256 := mod256_toNat (by omega)
  have hys : (mod256 (y : Int)).toNat = y % 256 := mod256_toNat (by omega)
  have hxe : (mod256 (2 * ((x : Int) + w - 1) + 7)).toNat = (2 * (x + w) + 5) % 256 := mod256_toNat (by omega)
  have hye : (mod256 ((y : Int) + h - 1)).toNat = (y + h + 255) % 256 := mod256_toNat (by omega)
  rw [emitWindow, cmdSession_eq_commandBurst, windowBytes_map_toNat, hxs, hys, hxe, hye, windowBurst]

theorem stream_eq_dataBurst (cs : List Color) : stream cs = dataBurst ((cs.map (·.toNat)).flatMap pairNumbers) := by
  simp only [stream, dataSession_eq_dataBurst, List.map_flatMap, List.flatMap_map, pair_map_toNat]

/-- A window and a stream of colours, as the rules write them. -/
theorem emitWindow_stream (x y w h : Nat) (cs : List Color) :
    emitWindow x y w h ++ stream cs = windowFilled x y w h (cs.map (·.toNat)) := by
  rw [emitWindow_eq_windowBurst, stream_eq_dataBurst, windowFilled]

end Sys2Proof.Machine

/-! SUPPORT. Events and reads of the parts of a list of actions. -/

namespace Sys2Proof.Machine

theorem eventsOf_flatMap {α : Type} (l : List α) (f : α → List Action) :
    eventsOf (l.flatMap f) = l.flatMap (fun a => eventsOf (f a)) := by
  induction l with
  | nil => rfl
  | cons a rest ih => simp [ih]

theorem readsOf_flatMap {α : Type} (l : List α) (f : α → List Action) :
    readsOf (l.flatMap f) = l.flatMap (fun a => readsOf (f a)) := by
  induction l with
  | nil => rfl
  | cons a rest ih => simp [ih]

end Sys2Proof.Machine

/-! SUPPORT. The loop of DRAWSTRING (43_text_renderer.md R94) performs a string's actions: each part of the loop as the part of
`stringActions` it performs, then the events and the reads among them. -/

namespace Sys2Proof.Machine

/-! ### The actions of the parts of the loop -/

/-- The actions of column `j` of a glyph whose first column stands at `x`: its bitmask's read, its window, its stream (R94,
R95). -/
def glyphColumnActions (m : Memory) (y : Byte) (fg bg : Color) (gb : FontAddr) (x j : Nat) : List Action :=
  .read .font (columnAddr gb (BitVec.ofNat 8 j)).toNat ::
    bus (windowFilled ((x + j) % 256) y.toNat 1 8
      ((columnPixels fg bg (some (m.fontRead (columnAddr gb (BitVec.ofNat 8 j))))).map (·.toNat)))

/-- The events of a spacing column at `x` (R96). -/
def spacingEvents (y : Byte) (fg bg : Color) (x : Nat) : List Event :=
  windowFilled (x % 256) y.toNat 1 8 ((columnPixels fg bg none).map (·.toNat))

/-- The actions of a string, character by character. -/
theorem stringActions_cons (m : Memory) (y : Byte) (fg bg : Color) (a : Addr) (x : Nat) (c : Byte) (cs : List Byte) :
    stringActions m y fg bg a x (c :: cs) =
      .read .text a.toNat :: .read .font (glyphBase c).toNat ::
        ((List.range (glyphWidth m c)).flatMap (glyphColumnActions m y fg bg (glyphBase c) x) ++
          bus (spacingEvents y fg bg (x + glyphWidth m c)) ++
          stringActions m y fg bg (a + 1) (x + glyphWidth m c + 1) cs) := rfl

/-- The eight colours of a column, bit by bit, are those R95 lists. -/
theorem columnColors_eq_columnPixels (fg bg : Color) (bits : Byte) :
    columnColors fg bg bits = columnPixels fg bg (some bits) := rfl

/-- A column's window and stream, where `X` holds the number `x` (R75, R95). -/
theorem columnStream_eq_windowFilled {r : Scratch} {x : Nat} (hx : r.x = BitVec.ofNat 8 x) (cs : List Color) :
    columnStream r cs = windowFilled (x % 256) r.y.toNat 1 8 (cs.map (·.toNat)) := by
  have hcoord : coord r.x = ((x % 256 : Nat) : Int) := by rw [hx, coord, BitVec.toNat_ofNat]
  rw [columnStream, hcoord]
  exact emitWindow_stream (x % 256) r.y.toNat 1 8 cs

theorem drawColumn_acts {r : Scratch} {x k : Nat} (m : Memory) (hx : r.x = BitVec.ofNat 8 (x + k)) :
    (drawColumn m (BitVec.ofNat 8 k) r).acts = glyphColumnActions m r.y r.fg r.bg r.gb x k := by
  simp only [drawColumn, glyphColumnActions, columnStream_eq_windowFilled hx, columnColors_eq_columnPixels]

/-- `n` columns from column `k` on. -/
theorem drawColumns_acts {r : Scratch} {x k : Nat} (m : Memory) (n : Nat) (hx : r.x = BitVec.ofNat 8 (x + k)) :
    (drawColumns m n (BitVec.ofNat 8 k) r).acts =
      (List.range' k n).flatMap (glyphColumnActions m r.y r.fg r.bg r.gb x) := by
  induction n generalizing k r with
  | zero => rfl
  | succ n ih =>
    have hnext : (drawColumn m (BitVec.ofNat 8 k) r).regs.x = BitVec.ofNat 8 (x + (k + 1)) := by
      rw [← Nat.add_assoc, BitVec.ofNat_add, ← hx]; rfl
    have hrest := ih hnext
    rw [BitVec.ofNat_add] at hrest
    rw [List.range'_succ, List.flatMap_cons, ← drawColumn_acts m hx]
    exact congrArg (_ ++ ·) hrest

theorem drawSpacing_acts {r : Scratch} {x : Nat} (hx : r.x = BitVec.ofNat 8 x) (fg : Color) :
    (drawSpacing r).acts = bus (spacingEvents r.y fg r.bg x) := by
  simp only [drawSpacing, columnStream_eq_windowFilled hx]
  rfl

/-- A character's actions after its code: the width, the columns, the spacing column (R94). -/
theorem drawChar_acts {r : Scratch} {x : Nat} (m : Memory) (ch : Byte) (hx : r.x = BitVec.ofNat 8 x) :
    (drawChar m ch r).acts =
      .read .font (glyphBase ch).toNat ::
        ((List.range (glyphWidth m ch)).flatMap (glyphColumnActions m r.y r.fg r.bg (glyphBase ch) x) ++
          bus (spacingEvents r.y r.fg r.bg (x + glyphWidth m ch))) := by
  have hcols := drawColumns_acts (r := (fetchGlyph m ch r).regs) (k := 0) m (glyphWidth m ch) hx
  obtain ⟨hX, hy, -, hbg, -⟩ := drawColumns_regs m (glyphWidth m ch) 0 (fetchGlyph m ch r).regs
  have hspace := drawSpacing_acts (x := x + glyphWidth m ch) (by rw [hX, BitVec.ofNat_add, ← hx]; rfl) r.fg
  rw [hy, hbg] at hspace
  rw [List.range_eq_range']
  exact congrArg₂ (fun a b => .read .font (glyphBase ch).toNat :: (a ++ b)) hcols hspace

/-! ### Passes of the loop over a string -/

theorem stringAt_succ (m : Memory) (n : Nat) (a : Addr) :
    stringAt m (n + 1) a =
      if m.textRead a = Config.textEnd then some [] else (stringAt m n (a + 1)).map (m.textRead a :: ·) := rfl

theorem drawChars_of_terminator {m : Memory} {r : Scratch} (n : Nat) (h : m.textRead r.ptr = Config.textEnd) :
    (drawChars m (n + 1) r).ended = true ∧ (drawChars m (n + 1) r).acts = [.read .text r.ptr.toNat] := by
  simp [drawChars, h]

theorem drawChars_of_char {m : Memory} {r : Scratch} (n : Nat) (h : m.textRead r.ptr ≠ Config.textEnd) :
    (drawChars m (n + 1) r).ended = (drawChars m n (drawChar m (m.textRead r.ptr) r).regs).ended ∧
    (drawChars m (n + 1) r).acts = .read .text r.ptr.toNat ::
      ((drawChar m (m.textRead r.ptr) r).acts ++ (drawChars m n (drawChar m (m.textRead r.ptr) r).regs).acts) := by
  simp [drawChars, h]

/-- Where a string is terminated within `n` codes, `n` passes meet the terminator and perform the string's actions (R94). -/
theorem drawChars_of_stringAt {m : Memory} {n : Nat} {r : Scratch} {x : Nat} {cs : List Byte}
    (hstr : stringAt m n r.ptr = some cs) (hx : r.x = BitVec.ofNat 8 x) :
    (drawChars m n r).ended = true ∧ (drawChars m n r).acts = stringActions m r.y r.fg r.bg r.ptr x cs := by
  induction n generalizing r x cs with
  | zero => cases hstr
  | succ n ih =>
    rw [stringAt_succ] at hstr
    split at hstr
    case isTrue hend =>
      cases hstr
      exact drawChars_of_terminator n hend
    case isFalse hchar =>
      obtain ⟨rest, hrest, rfl⟩ := Option.map_eq_some_iff.mp hstr
      obtain ⟨hX, hy, hfg, hbg, hptr⟩ := drawChar_regs m (m.textRead r.ptr) r
      have hnext : (drawChar m (m.textRead r.ptr) r).regs.x =
          BitVec.ofNat 8 (x + glyphWidth m (m.textRead r.ptr) + 1) := by
        rw [hX, BitVec.ofNat_add, BitVec.ofNat_add, ← hx, glyphWidth, BitVec.ofNat_toNat, BitVec.setWidth_eq]
        rfl
      obtain ⟨hended, hacts⟩ := ih (hptr.symm ▸ hrest) hnext
      obtain ⟨hended', hacts'⟩ := drawChars_of_char n hchar
      refine ⟨hended'.trans hended, ?_⟩
      rw [hacts', hacts, drawChar_acts m _ hx, hy, hfg, hbg, hptr, stringActions_cons]
      simp

/-! ### The events and the reads of a string -/

/-- The numbers of a character's columns, the first being column `k` of its string. -/
theorem zipIdx_charColumns (m : Memory) (c : Byte) (k : Nat) :
    (charColumns m c).zipIdx k =
      (List.range (glyphWidth m c)).map
        (fun j => (some (m.fontRead (columnAddr (glyphBase c) (BitVec.ofNat 8 j))), k + j)) ++
      [(none, k + glyphWidth m c)] := by
  rw [charColumns, List.zipIdx_append, List.zipIdx_eq_zip_range', List.length_map, List.length_range,
    List.range'_eq_map_range, List.zip_map']
  rfl

theorem length_charColumns (m : Memory) (c : Byte) : (charColumns m c).length = glyphWidth m c + 1 := by
  simp [charColumns]

/-- The events of a string's actions are those of its columns; `k` columns stand before them (R94 to R96). -/
theorem eventsOf_stringActions (m : Memory) (y : Byte) (fg bg : Color) (a : Addr) (x k : Nat) (cs : List Byte) :
    eventsOf (stringActions m y fg bg a (x + k) cs) =
      ((stringColumns m cs).zipIdx k).flatMap
        (fun p => windowFilled ((x + p.2) % 256) y.toNat 1 8 ((columnPixels fg bg p.1).map (·.toNat))) := by
  induction cs generalizing a k with
  | nil => rfl
  | cons c cs ih =>
    have hrest := ih (a + 1) (k + (glyphWidth m c + 1))
    rw [stringColumns, List.flatMap_cons, ← stringColumns, List.zipIdx_append, List.flatMap_append, length_charColumns,
      ← hrest, zipIdx_charColumns, stringActions_cons]
    simp [eventsOf, eventsOf_flatMap, glyphColumnActions, spacingEvents, List.flatMap_map, Nat.add_assoc]

/-- The reads of a string's actions (R93, R94, R97). -/
theorem readsOf_stringActions (m : Memory) (y : Byte) (fg bg : Color) (a : Addr) (x : Nat) (cs : List Byte) :
    readsOf (stringActions m y fg bg a x cs) = stringReads m a cs := by
  induction cs generalizing a x with
  | nil => rfl
  | cons c cs ih =>
    have hcols : (List.range (glyphWidth m c)).flatMap
        (fun j => readsOf (glyphColumnActions m y fg bg (glyphBase c) x j)) =
        (List.range (glyphWidth m c)).map (fun j => (.font, (columnAddr (glyphBase c) (BitVec.ofNat 8 j)).toNat)) := by
      simp [glyphColumnActions, readsOf, List.map_eq_flatMap]
    rw [stringActions_cons, stringReads]
    simp [readsOf, readsOf_flatMap, hcols, ih]

/-! ### Where a terminator is found -/

/-- A terminator is met within `n` codes exactly when one of the `n` addresses from `a` on holds it (R29). -/
theorem stringAt_isSome_iff (m : Memory) (n : Nat) (a : Addr) :
    (∃ cs, stringAt m n a = some cs) ↔ ∃ i < n, m.textRead (a + BitVec.ofNat 16 i) = Config.textEnd := by
  induction n generalizing a with
  | zero => simp [stringAt]
  | succ n ih =>
    have hshift : (∃ i < n, m.textRead (a + 1 + BitVec.ofNat 16 i) = Config.textEnd) ↔
        ∃ i < n, m.textRead (a + BitVec.ofNat 16 (i + 1)) = Config.textEnd :=
      exists_congr fun i => and_congr_right fun _ => by rw [← addr_shift a i]; rfl
    rw [stringAt_succ]
    split
    case isTrue hend => exact iff_of_true ⟨[], rfl⟩ ⟨0, Nat.succ_pos n, by simpa using hend⟩
    case isFalse hchar =>
      have hmap : (∃ cs, (stringAt m n (a + 1)).map (m.textRead a :: ·) = some cs) ↔
          ∃ cs, stringAt m n (a + 1) = some cs := by
        cases stringAt m n (a + 1) <;> simp
      rw [hmap, ih, hshift]
      constructor
      · rintro ⟨i, hi, h⟩
        exact ⟨i + 1, Nat.succ_lt_succ hi, h⟩
      · rintro ⟨i, hi, h⟩
        cases i with
        | zero => exact absurd (by simpa using h) hchar
        | succ i => exact ⟨i, Nat.lt_of_succ_lt_succ hi, h⟩

/-- Every address lies on the way round a space from any other. -/
theorem addr_add_sub (a b : Addr) : a + BitVec.ofNat 16 (b - a).toNat = b := by
  rw [BitVec.ofNat_toNat, BitVec.setWidth_eq, BitVec.add_comm, BitVec.sub_add_cancel]

end Sys2Proof.Machine

/-! SUPPORT. Which memory spaces the parts of an operation read (20_memory.md R25, R34). -/

namespace Sys2Proof.Machine

theorem reads_runString (s : State) (r : Scratch) :
    (s.runString r).reads = s.reads ++ readsOf (drawChars s.mem (Config.spaceSize .text) r).acts := by
  obtain ⟨run, rfl, -, hrun⟩ | ⟨run, rfl, -, hrun⟩ := runString_cases s r
  · rw [hrun, reads_complete]
  · rw [hrun]; exact reads_perform s _

theorem readsOf_drawColumns_font (m : Memory) (n : Nat) (col : Byte) (r : Scratch) :
    ∀ p ∈ readsOf (drawColumns m n col r).acts, p.1 = .font := by
  induction n generalizing col r with
  | zero => simp [drawColumns, readsOf]
  | succ n ih =>
    obtain ⟨-, hread, -⟩ := drawColumn_spec m col r
    simpa [drawColumns, hread] using fun sp a => ih (col + 1) (drawColumn m col r).regs (sp, a)

theorem readsOf_drawChar_font (m : Memory) (ch : Byte) (r : Scratch) :
    ∀ p ∈ readsOf (drawChar m ch r).acts, p.1 = .font := by
  simpa [drawChar, fetchGlyph, drawSpacing, readsOf] using
    fun sp a => readsOf_drawColumns_font m _ 0 (fetchGlyph m ch r).regs (sp, a)

/-- A string, terminated or not, reads codes and glyphs only (R94). -/
theorem readsOf_drawChars (m : Memory) (n : Nat) (r : Scratch) :
    ∀ p ∈ readsOf (drawChars m n r).acts, p.1 = .text ∨ p.1 = .font := by
  induction n generalizing r with
  | zero => simp [drawChars, readsOf]
  | succ n ih =>
    by_cases h : m.textRead r.ptr = Config.textEnd
    · simp [(drawChars_of_terminator n h).2, readsOf]
    · intro p hp
      rw [(drawChars_of_char n h).2, readsOf, readsOf_append, List.mem_cons, List.mem_append] at hp
      obtain rfl | hchar | hrest := hp
      · exact .inl rfl
      · exact .inr (readsOf_drawChar_font m _ r p hchar)
      · exact ih _ p hrest

theorem readsOf_blit_space (m : Memory) (src : PixSource) (x y width height : Byte) (ptr : Addr) :
    ∀ p ∈ readsOf (blit m src x y width height ptr), p.1 = src.space := by
  simp [readsOf_blit]

/-- A command that completes with bus events alone reads nothing. -/
theorem no_reads_of_bus {i : Instr} {s t : State} {es : List Event} (hi : exec i s = .next (s.complete (bus es)))
    (h : exec i s = .next t) : ∃ rds, t.reads = s.reads ++ rds ∧ rds = [] := by
  rw [hi, Host.Outcome.next.injEq] at h
  exact ⟨[], by rw [← h, reads_complete, readsOf_bus], rfl⟩

end Sys2Proof.Machine

/-! SUPPORT. The host's writes, read back (20_memory.md R39). -/

namespace Sys2Proof.Machine

/-- A read at any address after a write at any address of a canonical space. -/
theorem readCell_writeCell {w n size low : Nat} {m : Cells w} (h : Cells.wfFrom size low m = true) (a b : BitVec n)
    (v : BitVec w) : readCell (writeCell m a.toNat v) b.toNat = if b = a then v else readCell m b.toNat := by
  split
  case isTrue hba => rw [hba, readCell_writeCell_same h]
  case isFalse hba => rw [readCell_writeCell_other m v (mt BitVec.eq_of_toNat_eq hba)]

/-- The canonical form of the memories, space by space. -/
theorem Memory.wf_iff (m : Memory) :
    m.wf = true ↔ Cells.wfFrom (Config.spaceSize .font) 0 m.font = true ∧
      Cells.wfFrom (Config.spaceSize .text) 0 m.text = true ∧ Cells.wfFrom (Config.spaceSize .pixbuf) 0 m.pixbuf = true ∧
      Cells.wfFrom (Config.spaceSize .pixtab) 0 m.pixtab = true := by
  simp only [Memory.wf, Bool.and_eq_true, and_assoc]

end Sys2Proof.Machine

/-! The statements about the memories and the text family (20_memory.md, 43_text_renderer.md). -/

namespace Sys2Proof.Machine

/-- Settles O46: the loop performs the string's actions, and their events and reads are the ones R94 gives. -/
theorem drawstringCompletes : Obligations.DrawstringCompletes := by
  unfold Obligations.DrawstringCompletes
  intro s x y color background ptr cs hidle hstr
  obtain ⟨-, hce, hrs⟩ := hidle
  obtain ⟨hended, hacts⟩ := drawChars_of_stringAt (x := x.toNat)
    (r := { s.scratch with x := x, y := y, fg := color, bg := background, ptr := ptr }) hstr (by simp)
  have hlines : IdleTrace (eventsOf (stringActions s.mem y color background ptr x.toNat cs)) :=
    hacts ▸ idleTrace_drawChars ..
  have hevents : eventsOf (stringActions s.mem y color background ptr x.toNat cs) =
      columnsEvents x y color background (stringColumns s.mem cs) := eventsOf_stringActions _ _ _ _ _ x.toNat 0 cs
  have hdone := complete_completed s (stringActions s.mem y color background ptr x.toNat cs)
    (hce ▸ hlines.ce) (hrs ▸ hlines.rs)
  rw [hevents, readsOf_stringActions] at hdone
  refine ⟨_, ?_, hdone, complete_log ..⟩
  rw [exec_drawstring, runString_of_ended hended, hacts]

/-- Settles O14, by the four things a step can do; a reset, and actions that are cut short, do not touch the memories. -/
theorem memoriesNeverWritten : Obligations.MemoriesNeverWritten := by
  unfold Obligations.MemoriesNeverWritten
  refine ⟨fun s t hstep => ?_, assertReset_mem, fun s n => ?_⟩
  · obtain ⟨-, rfl⟩ | ⟨-, -, rfl⟩ | ⟨-, w, e, -, -, rfl⟩ | ⟨-, w, i, -, -, ht⟩ := step_cases hstep
    · exact (Keeps.runString s s.scratch).mem
    · rfl
    · exact complete_mem s.setIll []
    · exact (Keeps.exec ht).mem
  · rw [State.resetDuring, assertReset_mem, perform_mem]

/-- Settles O15, by the arms of `exec`: eleven complete with bus events alone, two with a blit, and one runs a string. -/
theorem readsByCommand : Obligations.ReadsByCommand := by
  unfold Obligations.ReadsByCommand
  intro i s t h
  cases i with
  | drawstring x y color background ptr => cases h; exact ⟨_, reads_runString .., readsOf_drawChars _ _ _⟩
  | drawbitmapb x y width height ptr => cases h; exact ⟨_, reads_complete .., readsOf_blit_space _ _ _ _ _ _ _⟩
  | drawbitmapt x y width height ptr => cases h; exact ⟨_, reads_complete .., readsOf_blit_space _ _ _ _ _ _ _⟩
  | setwindow x y width height => exact no_reads_of_bus (exec_setwindow ..) h
  | setcontrast contrast => exact no_reads_of_bus (exec_setcontrast ..) h
  | setlcdon on => exact no_reads_of_bus (exec_setlcdon ..) h
  | inversescreen inverse => exact no_reads_of_bus (exec_inversescreen ..) h
  | setstartline line => exact no_reads_of_bus (exec_setstartline ..) h
  | setinverselines y height mode => exact no_reads_of_bus (exec_setinverselines ..) h
  | drawpixel x y color => exact no_reads_of_bus (exec_drawpixel ..) h
  | drawline x1 y1 x2 y2 color => exact no_reads_of_bus (exec_drawline ..) h
  | fillrect x y width height color => exact no_reads_of_bus (exec_fillrect ..) h
  | drawrect x y width height color => exact no_reads_of_bus (exec_drawrect ..) h
  | clear color => exact no_reads_of_bus (exec_clear ..) h

/-- Settles O48: `TEXT` is searched once round, which meets every address. -/
theorem terminatorDecides : Obligations.TerminatorDecides := by
  unfold Obligations.TerminatorDecides
  intro m ptr
  refine (stringAt_isSome_iff m (Config.spaceSize .text) ptr).trans ⟨?_, ?_⟩
  · rintro ⟨i, -, h⟩
    exact ⟨_, h⟩
  · rintro ⟨a, h⟩
    exact ⟨(a - ptr).toNat, (a - ptr).isLt, by rw [addr_add_sub]; exact h⟩

/-- Settles O45: the subtraction wraps exactly for the codes below 32. -/
theorem glyphBaseFormula : Obligations.GlyphBaseFormula := by
  unfold Obligations.GlyphBaseFormula
  intro c
  have hc := c.isLt
  have hbase : (glyphBase c).toNat = (2048 - 32 + c.toNat % 2048) % 2048 * 6 % 2048 := by
    simp [glyphBase]
  rw [hbase]
  exact ⟨fun hhigh => by omega, fun hlow => by omega⟩

/-- Settles O59: a read after a write in the written space; the frame is the form of each write. -/
theorem hostWritesReadBack : Obligations.HostWritesReadBack := by
  unfold Obligations.HostWritesReadBack
  refine ⟨fun s hwf => ?_, fun _ _ _ => ⟨_, rfl⟩, fun _ _ _ => ⟨_, rfl⟩, fun _ _ _ => ⟨_, rfl⟩, fun _ _ _ => ⟨_, rfl⟩⟩
  obtain ⟨hfont, htext, hpixbuf, hpixtab⟩ := (Memory.wf_iff s.mem).mp hwf
  exact ⟨readCell_writeCell htext, readCell_writeCell hpixbuf, readCell_writeCell hfont, readCell_writeCell hpixtab⟩

end Sys2Proof.Machine

/-! SUPPORT. The decoder and the encoder field by field (30_encoding.md R46 to R51): a word is the word of its fields, a mask
acts on each field by itself, and one equivalence says when a word decodes to a command. -/

namespace Sys2Proof

/-! ### Words and their fields -/

open BitVec (extractLsb'_append_extractLsb'_eq_extractLsb') in
/-- A word is the word of its fields (R46). -/
theorem packWord_fields (w : CmdWord) :
    packWord (opField w) (aField w) (bField w) (cField w) (dField w) (fgField w) (bgField w) (ptrField w) = w := by
  simp only [packWord, opField, aField, bField, cField, dField, fgField, bgField, ptrField]
  rw [extractLsb'_append_extractLsb'_eq_extractLsb' (rfl : 80 = 72 + 8),
    extractLsb'_append_extractLsb'_eq_extractLsb' (rfl : 72 = 64 + 8),
    extractLsb'_append_extractLsb'_eq_extractLsb' (rfl : 64 = 56 + 8),
    extractLsb'_append_extractLsb'_eq_extractLsb' (rfl : 56 = 48 + 8),
    extractLsb'_append_extractLsb'_eq_extractLsb' (rfl : 48 = 32 + 16),
    extractLsb'_append_extractLsb'_eq_extractLsb' (rfl : 32 = 16 + 16),
    extractLsb'_append_extractLsb'_eq_extractLsb' (rfl : 16 = 0 + 16)]
  exact BitVec.extractLsb'_eq_self

open BitVec (extractLsb'_append_extractLsb'_eq_extractLsb') in
/-- A word is the word of its eleven bytes (R54). -/
theorem wordOfBytes_bytes (w : CmdWord) :
    wordOfBytes (w.extractLsb' 80 8) (w.extractLsb' 72 8) (w.extractLsb' 64 8) (w.extractLsb' 56 8) (w.extractLsb' 48 8)
      (w.extractLsb' 40 8) (w.extractLsb' 32 8) (w.extractLsb' 24 8) (w.extractLsb' 16 8) (w.extractLsb' 8 8)
      (w.extractLsb' 0 8) = w := by
  rw [wordOfBytes, extractLsb'_append_extractLsb'_eq_extractLsb' (rfl : 80 = 72 + 8),
    extractLsb'_append_extractLsb'_eq_extractLsb' (rfl : 72 = 64 + 8),
    extractLsb'_append_extractLsb'_eq_extractLsb' (rfl : 64 = 56 + 8),
    extractLsb'_append_extractLsb'_eq_extractLsb' (rfl : 56 = 48 + 8),
    extractLsb'_append_extractLsb'_eq_extractLsb' (rfl : 48 = 40 + 8),
    extractLsb'_append_extractLsb'_eq_extractLsb' (rfl : 40 = 32 + 8),
    extractLsb'_append_extractLsb'_eq_extractLsb' (rfl : 32 = 24 + 8),
    extractLsb'_append_extractLsb'_eq_extractLsb' (rfl : 24 = 16 + 8),
    extractLsb'_append_extractLsb'_eq_extractLsb' (rfl : 16 = 8 + 8),
    extractLsb'_append_extractLsb'_eq_extractLsb' (rfl : 8 = 0 + 8)]
  exact BitVec.extractLsb'_eq_self

theorem opField_and (w v : CmdWord) : opField (w &&& v) = opField w &&& opField v := BitVec.extractLsb'_and
theorem aField_and (w v : CmdWord) : aField (w &&& v) = aField w &&& aField v := BitVec.extractLsb'_and
theorem bField_and (w v : CmdWord) : bField (w &&& v) = bField w &&& bField v := BitVec.extractLsb'_and
theorem cField_and (w v : CmdWord) : cField (w &&& v) = cField w &&& cField v := BitVec.extractLsb'_and
theorem dField_and (w v : CmdWord) : dField (w &&& v) = dField w &&& dField v := BitVec.extractLsb'_and
theorem fgField_and (w v : CmdWord) : fgField (w &&& v) = fgField w &&& fgField v := BitVec.extractLsb'_and
theorem bgField_and (w v : CmdWord) : bgField (w &&& v) = bgField w &&& bgField v := BitVec.extractLsb'_and
theorem ptrField_and (w v : CmdWord) : ptrField (w &&& v) = ptrField w &&& ptrField v := BitVec.extractLsb'_and

/-- A word under a mask, field by field. -/
theorem and_packWord (w : CmdWord) (op a b c d : Byte) (fg bg : Color) (ptr : Addr) :
    w &&& packWord op a b c d fg bg ptr =
      packWord (opField w &&& op) (aField w &&& a) (bField w &&& b) (cField w &&& c) (dField w &&& d)
        (fgField w &&& fg) (bgField w &&& bg) (ptrField w &&& ptr) := by
  rw [← packWord_fields (w &&& _)]
  simp only [opField_and, aField_and, bField_and, cField_and, dField_and, fgField_and, bgField_and, ptrField_and,
    opField_packWord, aField_packWord, bField_packWord, cField_packWord, dField_packWord, fgField_packWord,
    bgField_packWord, ptrField_packWord]

/-! ### Masks of one field -/

theorem byte_and_ones (v : Byte) : v &&& 0xFF = v := BitVec.and_allOnes

theorem halfword_and_ones (v : BitVec 16) : v &&& 0xFFFF = v := BitVec.and_allOnes

theorem and_zeros {n : Nat} (v : BitVec n) : v &&& 0 = 0 := BitVec.and_zero

theorem boolOperand_byteOfBool (v : Bool) : boolOperand (byteOfBool v) = v := by
  cases v <;> rfl

/-- A Boolean operand's byte keeps bit 0 of its field (R48, R51). -/
theorem byteOfBool_boolOperand (v : Byte) : byteOfBool (boolOperand v) = v &&& 1 := by
  have hbit : v &&& 1 = (BitVec.ofBool (v.getLsbD 0)).setWidth 8 := BitVec.and_one_eq_setWidth_ofBool_getLsbD
  rw [hbit, boolOperand]
  cases v.getLsbD 0 <;> rfl

theorem boolOperand_and_one (v : Byte) : boolOperand (v &&& 1) = boolOperand v := by
  simp [boolOperand]

theorem modeOperand_setWidth (mode : BitVec 2) : modeOperand (mode.setWidth 8) = mode := by
  rw [modeOperand, BitVec.extractLsb'_setWidth_of_le (by omega), BitVec.extractLsb'_eq_self]

theorem modeOperand_and_three (v : Byte) : modeOperand (v &&& 3) = modeOperand v := by
  rw [modeOperand, BitVec.extractLsb'_and]
  exact BitVec.and_allOnes

/-- The mode's byte keeps bits 1 and 0 of its field (R48, R51). -/
theorem setWidth_modeOperand (v : Byte) : (modeOperand v).setWidth 8 = v &&& 3 := by
  have hmod : v.toNat &&& 3 = v.toNat % 4 := Nat.and_two_pow_sub_one_eq_mod v.toNat 2
  apply BitVec.eq_of_toNat_eq
  simp [modeOperand, hmod]
  omega

/-! ### When a word decodes to a command -/

/-- The command of the same kind whose operands are the fields of `w` (R47, R48). -/
def Instr.withFields (i : Instr) (w : CmdWord) : Instr :=
  match i with
  | .setwindow _ _ _ _ => .setwindow (aField w) (bField w) (cField w) (dField w)
  | .setcontrast _ => .setcontrast (aField w)
  | .setlcdon _ => .setlcdon (boolOperand (aField w))
  | .inversescreen _ => .inversescreen (boolOperand (aField w))
  | .setstartline _ => .setstartline (aField w)
  | .setinverselines _ _ _ => .setinverselines (aField w) (bField w) (modeOperand (cField w))
  | .drawpixel _ _ _ => .drawpixel (aField w) (bField w) (fgField w)
  | .drawline _ _ _ _ _ => .drawline (aField w) (bField w) (cField w) (dField w) (fgField w)
  | .fillrect _ _ _ _ _ => .fillrect (aField w) (bField w) (cField w) (dField w) (fgField w)
  | .drawrect _ _ _ _ _ => .drawrect (aField w) (bField w) (cField w) (dField w) (fgField w)
  | .clear _ => .clear (fgField w)
  | .drawbitmapb _ _ _ _ _ => .drawbitmapb (aField w) (bField w) (cField w) (dField w) (ptrField w)
  | .drawbitmapt _ _ _ _ _ => .drawbitmapt (aField w) (bField w) (cField w) (dField w) (ptrField w)
  | .drawstring _ _ _ _ _ => .drawstring (aField w) (bField w) (fgField w) (bgField w) (ptrField w)

/-- The fourteen opcodes (R47, R49). -/
def legalOpcodes : List Nat :=
  [0x01, 0x02, 0x03, 0x04, 0x05, 0x06, 0x10, 0x11, 0x12, 0x13, 0x14, 0x15, 0x16, 0x20]

theorem mem_legalOpcodes_iff (n : Nat) :
    n ∈ legalOpcodes ↔ (0x01 ≤ n ∧ n ≤ 0x06) ∨ (0x10 ≤ n ∧ n ≤ 0x16) ∨ n = 0x20 := by
  simp only [legalOpcodes, List.mem_cons, List.not_mem_nil, or_false]
  omega

theorem decode_of_opField {w : CmdWord} {i : Instr} (h : opField w = i.opcode) : decode w = .ok (i.withFields w) := by
  unfold decode
  rw [h]
  cases i <;> rfl

/-- Of the fifteen branches of the decoder, fourteen give the command of their opcode with the word's fields. -/
theorem opField_of_decode {w : CmdWord} {i : Instr} (h : decode w = .ok i) :
    opField w = i.opcode ∧ i.withFields w = i := by
  unfold decode at h
  split at h
  all_goals cases h
  all_goals exact ⟨BitVec.eq_of_toNat_eq ‹_›, rfl⟩

/-- A word decodes to a command exactly when it has its opcode and carries its operands (R47). -/
theorem decode_eq_ok_iff (w : CmdWord) (i : Instr) :
    decode w = .ok i ↔ opField w = i.opcode ∧ i.withFields w = i := by
  refine ⟨opField_of_decode, ?_⟩
  rintro ⟨hop, hfields⟩
  rw [decode_of_opField hop, hfields]

/-- The decoder refuses exactly the words with none of the fourteen opcodes, and names the opcode (R49, R50). -/
theorem decode_eq_error_iff (w : CmdWord) (e : DecodeError) :
    decode w = .error e ↔ (opField w).toNat ∉ legalOpcodes ∧ e = .illegalOpcode (opField w) := by
  unfold decode
  split
  case h_15 =>
    have hop : (opField w).toNat ∉ legalOpcodes := by grind [mem_legalOpcodes_iff]
    simp [hop, eq_comm]
  all_goals simp [legalOpcodes, *]

/-! ### Masked words -/

/-- The used bits of a word hold its opcode. -/
theorem opField_and_usedMask (w : CmdWord) (i : Instr) : opField (w &&& i.usedMask) = opField w := by
  cases i <;> simp only [Instr.usedMask, and_packWord, opField_packWord, byte_and_ones]

/-- The used bits of a word hold every operand (R47, R48). -/
theorem withFields_and_usedMask (w : CmdWord) (i : Instr) : i.withFields (w &&& i.usedMask) = i.withFields w := by
  cases i <;> simp only [Instr.withFields, Instr.usedMask, and_packWord, aField_packWord, bField_packWord, cField_packWord,
    dField_packWord, fgField_packWord, bgField_packWord, ptrField_packWord, byte_and_ones, halfword_and_ones,
    boolOperand_and_one, modeOperand_and_three]

/-! ### What the encoder writes -/

theorem opField_encode (i : Instr) : opField (encode i) = i.opcode := by
  cases i <;> exact opField_packWord ..

theorem withFields_encode (i : Instr) : i.withFields (encode i) = i := by
  cases i <;> simp only [Instr.withFields, encode, aField_packWord, bField_packWord, cField_packWord, dField_packWord,
    fgField_packWord, bgField_packWord, ptrField_packWord, boolOperand_byteOfBool, modeOperand_setWidth]

/-- Encoding the operands of a word gives its used bits, and zero for the reserved ones (R51). -/
theorem encode_withFields {w : CmdWord} {i : Instr} (h : opField w = i.opcode) :
    encode (i.withFields w) = w &&& i.usedMask := by
  cases i <;> simp only [encode, Instr.withFields, Instr.usedMask, Instr.opcode, h, and_packWord, byte_and_ones,
    halfword_and_ones, and_zeros, byteOfBool_boolOperand, setWidth_modeOperand]

/-! ### The serial form -/

/-- The bytes of a word decode as the word does. -/
theorem decodeBytes_bytesOfWord (w : CmdWord) (rest : List Byte) :
    decodeBytes (bytesOfWord w ++ rest) = (decode w).map (fun i => (i, rest)) := by
  simp only [bytesOfWord, List.cons_append, List.nil_append, decodeBytes, wordOfBytes_bytes]
  cases decode w <;> rfl

end Sys2Proof

/-! The statements about the encoding (30_encoding.md). -/

namespace Sys2Proof

/-- Settles O1: the word of a command has its opcode, and its operands in their fields. -/
theorem decodeOfEncode : Obligations.DecodeOfEncode := by
  unfold Obligations.DecodeOfEncode
  intro i
  exact (decode_eq_ok_iff (encode i) i).mpr ⟨opField_encode i, withFields_encode i⟩

/-- Settles O2: a word that decodes to a command carries its operands, and encoding them gives the word's used bits. -/
theorem encodeOfDecode : Obligations.EncodeOfDecode := by
  unfold Obligations.EncodeOfDecode
  intro w i h
  obtain ⟨hop, hfields⟩ := opField_of_decode h
  rw [← encode_withFields hop, hfields]

/-- Settles O3: opcode and operands are read from the used bits, on which the words agree; and by O1 and O2 a command's
word is equal to its own used bits. -/
theorem reservedBitsIgnored : Obligations.ReservedBitsIgnored := by
  unfold Obligations.ReservedBitsIgnored
  refine ⟨fun w v i hw hused => ?_, fun i => ?_⟩
  · obtain ⟨hop, hfields⟩ := opField_of_decode hw
    have hv : decode v = .ok i := by
      rw [decode_eq_ok_iff, ← opField_and_usedMask v i, ← withFields_and_usedMask v i, hused, opField_and_usedMask,
        withFields_and_usedMask]
      exact ⟨hop, hfields⟩
    exact ⟨hv, fun s => by rw [Machine.takeWord_of_ok s hv, Machine.takeWord_of_ok s hw]⟩
  · rw [encodeOfDecode (encode i) i (decodeOfEncode i), BitVec.and_assoc, BitVec.and_not_self]
    exact and_zeros _

/-- Settles O4. -/
theorem illegalWordsNamed : Obligations.IllegalWordsNamed := by
  unfold Obligations.IllegalWordsNamed
  intro w
  refine ⟨⟨fun hop => (decode_eq_error_iff w _).mpr ⟨hop, rfl⟩, fun h => ((decode_eq_error_iff w _).mp h).1⟩, ?_⟩
  exact fun e h => ((decode_eq_error_iff w e).mp h).2

/-- Settles O5: the eleven bytes put together are the word. -/
theorem serialFormDecodes : Obligations.SerialFormDecodes := by
  unfold Obligations.SerialFormDecodes
  intro w rest
  refine ⟨fun i h => ?_, fun e h => ?_⟩
  · rw [decodeBytes_bytesOfWord, h]; rfl
  · rw [decodeBytes_bytesOfWord, h]; rfl

/-- Settles O6, each word by its opcode and its fields. -/
theorem sampleWordsDecode : Obligations.SampleWordsDecode := by
  unfold Obligations.SampleWordsDecode
  exact ⟨(decode_eq_ok_iff ..).mpr ⟨rfl, rfl⟩, (decode_eq_ok_iff ..).mpr ⟨rfl, rfl⟩,
    (decode_eq_ok_iff ..).mpr ⟨rfl, rfl⟩, (decode_eq_ok_iff ..).mpr ⟨rfl, rfl⟩⟩

end Sys2Proof

/-! SUPPORT. What an operation sends is whole bursts (40_session_primitives.md R67 to R69): command sessions that open with a
group byte, and windows filled by one data session. -/

namespace Sys2Proof.Machine

/-! ### Bursts and their sessions -/

/-- The first byte of a command session (R59, R63, R64). -/
def opensWithGroupByte (bytes : List Byte) : Prop := bytes.head? ∈ [some 0xF0, some 0xF4, some 0xF5]

/-- Events made of whole bursts, from idle lines to idle lines. -/
inductive Bursts : List Event → Prop
  | nil : Bursts []
  | command {bytes : List Byte} : opensWithGroupByte bytes → Bursts (cmdSession bytes)
  | filled (x y : Int) (w h : Nat) (cs : List Color) : Bursts (emitWindow x y w h ++ stream cs)
  | append {es fs : List Event} : Bursts es → Bursts fs → Bursts (es ++ fs)

theorem opensWithGroupByte_windowBytes (xs ys xe ye : Byte) : opensWithGroupByte (windowBytes xs ys xe ye) :=
  List.mem_cons_self

/-- The sessions of whole bursts come before those of what follows, and the command sessions among them open with a group
byte. -/
theorem Bursts.sessions_append {es : List Event} (h : Bursts es) :
    ∃ ss : List Session, (∀ x ∈ ss, x.mode = .command → opensWithGroupByte x.bytes) ∧
      ∀ fs, sessions (es ++ fs) = ss ++ sessions fs := by
  induction h with
  | nil => exact ⟨[], by simp, fun fs => rfl⟩
  | @command bytes hopen => exact ⟨[⟨.command, bytes⟩], by simpa using hopen, fun fs => sessionsFrom_cmdSession ..⟩
  | filled x y w h cs =>
    have hwindow : opensWithGroupByte (windowBytes (mod256 (2 * x + 6)) (mod256 y) (mod256 (2 * (x + w - 1) + 7))
      (mod256 (y + h - 1))) := opensWithGroupByte_windowBytes ..
    refine ⟨[⟨.command, _⟩, ⟨.data, cs.flatMap pair⟩], by simpa using hwindow, fun fs => ?_⟩
    rw [sessions, List.append_assoc, emitWindow, sessionsFrom_cmdSession, stream, sessionsFrom_dataSession]
    rfl
  | append _ _ ihes ihfs =>
    obtain ⟨ss, hss, hes⟩ := ihes
    obtain ⟨ss', hss', hfs⟩ := ihfs
    refine ⟨ss ++ ss', ?_, fun gs => by rw [List.append_assoc, hes, hfs, List.append_assoc]⟩
    exact fun x hx => (List.mem_append.mp hx).elim (hss x) (hss' x)

/-! ### What each operation sends -/

theorem Bursts.flatMap {α : Type} (l : List α) (f : α → List Event) (h : ∀ a, Bursts (f a)) :
    Bursts (l.flatMap f) := by
  induction l with
  | nil => exact .nil
  | cons a rest ih => exact (h a).append ih

theorem Bursts.emitWindow (x y : Int) (w h : Nat) : Bursts (emitWindow x y w h) :=
  .command (opensWithGroupByte_windowBytes ..)

theorem Bursts.fill (x y : Int) (w h : Nat) (c : Color) : Bursts (fill x y w h c) := .filled ..

theorem Bursts.rectEvents (x y w h : Byte) (c : Color) : Bursts (rectEvents x y w h c) :=
  (((Bursts.fill ..).append (.fill ..)).append (.fill ..)).append (.fill ..)

theorem Bursts.lineEvents (x1 y1 x2 y2 : Byte) (c : Color) : Bursts (lineEvents x1 y1 x2 y2 c) := by
  unfold Machine.lineEvents
  split
  · exact .fill ..
  · split
    · exact .fill ..
    · exact .flatMap _ _ fun _ => .fill ..

theorem Bursts.blit (m : Memory) (src : PixSource) (x y w h : Byte) (ptr : Addr) :
    Bursts (eventsOf (blit m src x y w h ptr)) := by
  rw [eventsOf_blit]
  exact .filled ..

theorem Bursts.drawColumns (m : Memory) (n : Nat) (col : Byte) (r : Scratch) :
    Bursts (eventsOf (drawColumns m n col r).acts) := by
  induction n generalizing col r with
  | zero => exact .nil
  | succ n ih =>
    simp only [Machine.drawColumns, eventsOf_append, (drawColumn_spec m col r).1]
    exact (Bursts.filled ..).append (ih ..)

theorem Bursts.drawSpacing (r : Scratch) : Bursts (eventsOf (drawSpacing r).acts) := by
  rw [Machine.drawSpacing, eventsOf_bus]
  exact .filled ..

theorem Bursts.drawChar (m : Memory) (ch : Byte) (r : Scratch) : Bursts (eventsOf (drawChar m ch r).acts) := by
  simp only [Machine.drawChar, eventsOf_append]
  exact (Bursts.nil.append (.drawColumns ..)).append (.drawSpacing _)

theorem Bursts.drawChars (m : Memory) (n : Nat) (r : Scratch) : Bursts (eventsOf (drawChars m n r).acts) := by
  induction n generalizing r with
  | zero => exact .nil
  | succ n ih =>
    by_cases h : m.textRead r.ptr = Config.textEnd
    · rw [(drawChars_of_terminator n h).2]
      exact .nil
    · rw [(drawChars_of_char n h).2, eventsOf, eventsOf_append]
      exact (Bursts.drawChar ..).append (ih _)

theorem trace_runString (s : State) (r : Scratch) :
    (s.runString r).trace = s.trace ++ eventsOf (drawChars s.mem (Config.spaceSize .text) r).acts := by
  obtain ⟨run, rfl, -, hrun⟩ | ⟨run, rfl, -, hrun⟩ := runString_cases s r
  · rw [hrun, trace_complete]
  · rw [hrun]; exact trace_perform s _

/-- From `s` to `t` the trace grows by whole bursts. -/
def SendsBursts (s t : State) : Prop := ∃ es, Bursts es ∧ t.trace = s.trace ++ es

theorem SendsBursts.complete (s : State) {acts : List Action} (h : Bursts (eventsOf acts)) :
    SendsBursts s (s.complete acts) :=
  ⟨_, h, trace_complete s acts⟩

/-- A command that completes with the bus events of whole bursts sends them. -/
theorem SendsBursts.of_bus {i : Instr} {s t : State} {es : List Event} (hi : exec i s = .next (s.complete (bus es)))
    (h : exec i s = .next t) (hes : Bursts es) : SendsBursts s t := by
  rw [hi, Host.Outcome.next.injEq] at h
  exact h ▸ .complete s (by rwa [eventsOf_bus])

theorem SendsBursts.runString (s : State) (r : Scratch) : SendsBursts s (s.runString r) :=
  ⟨_, .drawChars .., trace_runString s r⟩

/-- Every command sends whole bursts (R69). -/
theorem SendsBursts.exec {i : Instr} {s t : State} (h : exec i s = .next t) : SendsBursts s t := by
  cases i with
  | setwindow x y width height => exact .of_bus (exec_setwindow ..) h (.emitWindow ..)
  | setcontrast contrast => exact .of_bus (exec_setcontrast ..) h (.command (by simp [opensWithGroupByte]))
  | setlcdon on => exact .of_bus (exec_setlcdon ..) h (.command (by simp [opensWithGroupByte]))
  | inversescreen inverse => exact .of_bus (exec_inversescreen ..) h (.command (by simp [opensWithGroupByte]))
  | setstartline line => exact .of_bus (exec_setstartline ..) h (.command (by simp [opensWithGroupByte]))
  | setinverselines y height mode =>
    exact .of_bus (exec_setinverselines ..) h (.command (by simp [opensWithGroupByte, inverseLinesBytes]))
  | drawpixel x y color => exact .of_bus (exec_drawpixel ..) h (.fill ..)
  | drawline x1 y1 x2 y2 color => exact .of_bus (exec_drawline ..) h (.lineEvents ..)
  | fillrect x y width height color => exact .of_bus (exec_fillrect ..) h (.fill ..)
  | drawrect x y width height color => exact .of_bus (exec_drawrect ..) h (.rectEvents ..)
  | clear color => exact .of_bus (exec_clear ..) h (.fill ..)
  | drawbitmapb x y width height ptr => cases h; exact .complete s (.blit ..)
  | drawbitmapt x y width height ptr => cases h; exact .complete s (.blit ..)
  | drawstring x y color background ptr => cases h; exact .runString s _

/-- Every step sends whole bursts, or nothing. -/
theorem SendsBursts.step {s t : State} (h : step s = .next t) : SendsBursts s t := by
  obtain ⟨-, rfl⟩ | ⟨-, -, rfl⟩ | ⟨-, w, e, -, -, rfl⟩ | ⟨-, w, i, -, -, ht⟩ := step_cases h
  · exact .runString s s.scratch
  · exact ⟨[], .nil, (List.append_nil _).symm⟩
  · exact SendsBursts.complete s.setIll .nil
  · exact .exec ht

theorem bursts_newEvents {s t : State} (h : step s = .next t) : Bursts (newEvents s t) := by
  obtain ⟨es, hes, htrace⟩ := SendsBursts.step h
  rwa [newEvents, htrace, List.drop_left]

end Sys2Proof.Machine

/-! SUPPORT. Colours as numbers (30_encoding.md R65, 20_memory.md R44). -/

namespace Sys2Proof.Machine

/-- The colour a pair carries is the colour's low twelve bits. -/
theorem pairColor_toNat (c : Color) : (pairColor (colorHi c) (colorLo c)).toNat = c.toNat % 4096 := by
  rw [pairColor, BitVec.toNat_append, ← Nat.shiftLeft_add_eq_or_of_lt (colorLo c).isLt, Nat.shiftLeft_eq, lo_toNat,
    colorHi_toNat, colorLo_toNat]
  omega

/-- A colour's high nibble as a number. -/
theorem highNibble_toNat (c : Color) : (c.extractLsb' 12 4).toNat = c.toNat / 4096 := by
  have hc := c.isLt
  rw [BitVec.extractLsb'_toNat, Nat.shiftRight_eq_div_pow]
  omega

end Sys2Proof.Machine

/-! The statements about illegal words, command sessions and colour pairs (30_encoding.md R50, R59, R66). -/

namespace Sys2Proof.Machine

/-- Settles O20: the new events of a step are whole bursts. -/
theorem commandSessionsOpenWithGroupByte : Obligations.CommandSessionsOpenWithGroupByte := by
  unfold Obligations.CommandSessionsOpenWithGroupByte
  intro s t _ _ hstep
  obtain ⟨ss, hopen, hsessions⟩ := (bursts_newEvents hstep).sessions_append
  have hss : sessions (newEvents s t) = ss := by simpa [sessions, sessionsFrom] using hsessions []
  rw [hss]
  exact hopen

/-- Settles O8: R50's list has none of the fourteen opcodes, so the decoder refuses the word and the step takes it as an
illegal command. -/
theorem illegalOpcodeSetsIll : Obligations.IllegalOpcodeSetsIll := by
  unfold Obligations.IllegalOpcodeSetsIll
  refine ⟨?_, by decide +kernel, rfl⟩
  rintro s w op hb hw rfl hop
  have hillegal : (opField w).toNat ∉ legalOpcodes := by
    rw [mem_legalOpcodes_iff]
    omega
  have hstep : step s = .next s.takeIllegal := by
    rw [step_of_word hb hw, takeWord_of_error s ((decode_eq_error_iff w _).mpr ⟨hillegal, rfl⟩)]
  obtain ⟨hill, hlog, hce, hrs, hbusy, hk, hmem, hprog⟩ := takeIllegal_spec s
  exact ⟨_, hstep, hill, congrArg eventsOf hlog, congrArg readsOf hlog, hce, hrs, hbusy, hk, hmem, hprog⟩

/-- Settles O28: a legal colour is its own low twelve bits. -/
theorem colorRoundTrip : Obligations.ColorRoundTrip := by
  unfold Obligations.ColorRoundTrip
  refine ⟨fun c hc => ?_, by decide⟩
  have hhigh : c.toNat / 4096 = 0 := by rw [← highNibble_toNat, hc]; rfl
  rw [pairColor_toNat]
  omega

end Sys2Proof.Machine

/-! SUPPORT. Window commands and the data sessions behind them (30_encoding.md R61, 40_session_primitives.md R69 to R71,
70_reset_and_hazards.md R124, R125): what the sessions of whole bursts satisfy together. -/

namespace Sys2Proof.Machine

theorem isWindowCommand_windowBytes (xs ys xe ye : Byte) : isWindowCommand (windowBytes xs ys xe ye) = true := rfl

theorem length_windowBytes (xs ys xe ye : Byte) : (windowBytes xs ys xe ye).length = 10 := rfl

/-- A command session sends `RS(C)`, `CE(1)`, its bytes, `CE(0)` and `RS(D)` (R67). -/
theorem length_cmdSession (bytes : List Byte) : (cmdSession bytes).length = bytes.length + 4 := by
  simp [cmdSession]

/-- A stream carries two bytes a colour (R71). -/
theorem length_flatMap_pair (cs : List Color) : (cs.flatMap pair).length = cs.length * 2 := by
  simp [List.length_flatMap, pair]

/-- A window filled by a stream is a window command's session and a data session right behind it (R69). -/
theorem sessions_emitWindow_stream (x y : Int) (w h : Nat) (cs : List Color) (es : List Event) :
    ∃ bytes, isWindowCommand bytes = true ∧
      sessions (emitWindow x y w h ++ stream cs ++ es) =
        ⟨.command, bytes⟩ :: ⟨.data, cs.flatMap pair⟩ :: sessions es := by
  rw [sessions, List.append_assoc, emitWindow, sessionsFrom_cmdSession, stream, sessionsFrom_dataSession]
  exact ⟨_, isWindowCommand_windowBytes .., rfl⟩

/-- A command session may stand before sessions that are in order on their own: these do not begin with a data session. -/
theorem dataFollowsWindow_command_cons (bytes : List Byte) {rest : List Session} (h : dataFollowsWindow rest = true) :
    dataFollowsWindow (⟨.command, bytes⟩ :: rest) = true := by
  match rest, h with
  | [], _ => rfl
  | ⟨.command, _⟩ :: _, h => exact h
  | ⟨.data, _⟩ :: _, h => exact absurd h Bool.false_ne_true

theorem dataFollowsWindow_window_cons {bytes : List Byte} (hbytes : isWindowCommand bytes = true) (cs : List Color)
    {rest : List Session} (h : dataFollowsWindow rest = true) :
    dataFollowsWindow (⟨.command, bytes⟩ :: ⟨.data, cs.flatMap pair⟩ :: rest) = true := by
  have hpairs : (cs.flatMap pair).length % 2 = 0 := by rw [length_flatMap_pair, Nat.mul_mod_left]
  rw [dataFollowsWindow, hbytes, hpairs, h]
  rfl

/-- Whole bursts may stand before events whose data sessions follow their windows. -/
theorem Bursts.dataFollowsWindow_append {es fs : List Event} (hes : Bursts es)
    (hfs : dataFollowsWindow (sessions fs) = true) : dataFollowsWindow (sessions (es ++ fs)) = true := by
  induction hes generalizing fs with
  | nil => exact hfs
  | command _ =>
    rw [sessions, sessionsFrom_cmdSession]
    exact dataFollowsWindow_command_cons _ hfs
  | filled x y w h cs =>
    obtain ⟨bytes, hwindow, hsessions⟩ := sessions_emitWindow_stream x y w h cs fs
    rw [hsessions]
    exact dataFollowsWindow_window_cons hwindow cs hfs
  | append _ _ ihfirst ihsecond =>
    rw [List.append_assoc]
    exact ihfirst (ihsecond hfs)

end Sys2Proof.Machine

/-! The statements about sessions and the window primitive (40_session_primitives.md). -/

namespace Sys2Proof.Machine

/-- Settles O19: the new events of a step are whole bursts. -/
theorem dataFollowsWindow_of_step : Obligations.DataFollowsWindow := by
  unfold Obligations.DataFollowsWindow
  intro s t _ _ hstep
  have h := (bursts_newEvents hstep).dataFollowsWindow_append (fs := []) rfl
  rwa [List.append_nil] at h

/-- Settles O21: R70's burst, at four events around the ten bytes of the window command. -/
theorem emitWindowEncodesRectangle : Obligations.EmitWindowEncodesRectangle := by
  unfold Obligations.EmitWindowEncodesRectangle
  intro x y w h
  refine ⟨emitWindow_eq_windowBurst x y w h, ?_⟩
  rw [emitWindow, length_cmdSession, length_windowBytes]

end Sys2Proof.Machine

/-! SUPPORT. A command that is one session: what it completes with, and its bytes as the numbers the rules write out
(41_command_encoder.md, 30_encoding.md R60, R62). -/

namespace Sys2Proof.Machine

/-! ### Completing with bus events -/

/-- A command that completes with bus events that leave the lines idle adds these events and no read. -/
theorem completed_of_bus {i : Instr} {s : State} {es : List Event} (hi : exec i s = .next (s.complete (bus es)))
    (hce : ceAfter s.ce es = false) (hrs : rsAfter s.rs es = .data) :
    ∃ t, exec i s = .next t ∧ Completed s t es [] := by
  have hdone := complete_completed s (bus es) (by rwa [eventsOf_bus]) (by rwa [eventsOf_bus])
  rw [eventsOf_bus, readsOf_bus] at hdone
  exact ⟨_, hi, hdone⟩

/-- A command session leaves the lines idle from wherever they stand, so a command that is one completes with its bytes
(R67, R77). -/
theorem completed_of_cmdSession {i : Instr} {s : State} {bytes : List Byte} {numbers : List Nat}
    (hi : exec i s = .next (s.complete (bus (cmdSession bytes)))) (hbytes : bytes.map (·.toNat) = numbers) :
    ∃ t, exec i s = .next t ∧ Completed s t (commandBurst numbers) [] := by
  rw [← hbytes, ← cmdSession_eq_commandBurst]
  exact completed_of_bus hi (ceAfter_cmdSession ..) (rsAfter_cmdSession ..)

/-! ### Parameter bytes as numbers -/

theorem split_map_toNat (tagLo tagHi : Nibble) (v : Byte) :
    (split tagLo tagHi v).map (·.toNat) = [16 * tagLo.toNat + v.toNat % 16, 16 * tagHi.toNat + v.toNat / 16] := by
  simp only [split, List.map_cons, List.map_nil, tagged_toNat, lo_toNat, hi_toNat]

/-- The mode stands in the low two bits of its nibble (R83). -/
theorem modeNibble_toNat (mode : BitVec 2) : (modeNibble mode).toNat = mode.toNat := by
  rw [modeNibble, BitVec.toNat_setWidth_of_le (by omega)]

/-- The bytes of SETINVERSELINES: two split rows and the mode, each behind its group byte (R62, R83). -/
theorem inverseLinesBytes_map_toNat (ys ye : Byte) (mode : BitVec 2) :
    (inverseLinesBytes ys ye mode).map (·.toNat) =
      [0xF5, 16 * Config.ilTagYsLo.toNat + ys.toNat % 16, 16 * Config.ilTagYsHi.toNat + ys.toNat / 16,
       0xF5, 16 * Config.ilTagYeLo.toNat + ye.toNat % 16, 16 * Config.ilTagYeHi.toNat + ye.toNat / 16,
       0xF5, 16 * Config.ilTagMode.toNat + mode.toNat] := by
  simp [inverseLinesBytes, split_map_toNat, tagged_toNat, modeNibble_toNat]

/-- The last row of a range of rows, reduced modulo 256: a height of 0 gives the row before the first (R83). -/
theorem lastRow_toNat (y height : Byte) :
    (mod256 (coord y + coord height - 1)).toNat = (y.toNat + height.toNat + 255) % 256 :=
  mod256_toNat (by simp only [coord]; omega)

/-! ### Boolean operands and windows read back -/

/-- A Boolean operand is set where its field is odd (R48). -/
theorem boolOperand_eq_decide (v : Byte) : boolOperand v = decide (v.toNat % 2 = 1) := by
  rw [boolOperand, BitVec.getLsbD, Nat.testBit_zero]

/-- The window primitive is one command session, of the ten bytes of its window command (R67, R70). -/
theorem sessions_emitWindow (x y : Int) (w h : Nat) :
    sessions (emitWindow x y w h) =
      [⟨.command, windowBytes (mod256 (2 * x + 6)) (mod256 y) (mod256 (2 * (x + w - 1) + 7)) (mod256 (y + h - 1))⟩] := by
  rw [sessions, ← List.append_nil (emitWindow x y w h), emitWindow, sessionsFrom_cmdSession]
  rfl

/-- A window burst of the screen is one command session, whose bytes are read back as its rectangle (R61, R78). -/
theorem sessions_windowBurst {r : Window} (h : r.ok = true) :
    ∃ bytes, sessions (windowBurst r.x r.y r.width r.height) = [⟨.command, bytes⟩] ∧ parseWindow bytes = some r := by
  rw [← emitWindow_eq_windowBurst, sessions_emitWindow]
  exact ⟨_, rfl, parseWindow_emitted r h⟩

end Sys2Proof.Machine

/-! The statements about the command encoder family (41_command_encoder.md). -/

namespace Sys2Proof.Machine

/-- Settles O22: the command is one window primitive, and its session is read back as the rectangle. -/
theorem setwindowCompletes : Obligations.SetwindowCompletes := by
  unfold Obligations.SetwindowCompletes
  intro s x y width height
  refine ⟨?_, fun hok => sessions_windowBurst (r := ⟨x.toNat, y.toNat, width.toNat, height.toNat⟩) hok⟩
  rw [← emitWindow_eq_windowBurst]
  exact completed_of_bus (exec_setwindow ..) (ceAfter_emitWindow ..) (rsAfter_emitWindow ..)

/-- Settles O23: the two tagged halves of the contrast as numbers. -/
theorem setcontrastCompletes : Obligations.SetcontrastCompletes := by
  unfold Obligations.SetcontrastCompletes
  intro s v
  exact completed_of_cmdSession (exec_setcontrast ..) (by simp [tagged_toNat, hi_toNat, lo_toNat])

/-- Settles O24: one byte for each Boolean, and the Boolean is the parity of `a`. -/
theorem setlcdonCompletes : Obligations.SetlcdonCompletes := by
  unfold Obligations.SetlcdonCompletes
  refine ⟨fun s on => completed_of_cmdSession (exec_setlcdon ..) ?_, fun w hop => ?_⟩
  · cases on <;> rfl
  · rw [← boolOperand_eq_decide]
    exact decode_of_opField (i := .setlcdon true) hop

/-- Settles O25: one byte for each Boolean, and the Boolean is the parity of `a`. -/
theorem inversescreenCompletes : Obligations.InversescreenCompletes := by
  unfold Obligations.InversescreenCompletes
  refine ⟨fun s inverse => completed_of_cmdSession (exec_inversescreen ..) ?_, fun w hop => ?_⟩
  · cases inverse <;> rfl
  · rw [← boolOperand_eq_decide]
    exact decode_of_opField (i := .inversescreen true) hop

/-- Settles O26: the split line as numbers. -/
theorem setstartlineCompletes : Obligations.SetstartlineCompletes := by
  unfold Obligations.SetstartlineCompletes
  intro s v
  exact completed_of_cmdSession (exec_setstartline ..) (by simp [split_map_toNat])

/-- Settles O27: nothing is asked of the tags. -/
theorem setinverselinesCompletes : Obligations.SetinverselinesCompletes := by
  unfold Obligations.SetinverselinesCompletes
  intro s y height mode
  exact completed_of_cmdSession (exec_setinverselines ..) (by rw [inverseLinesBytes_map_toNat, lastRow_toNat])

end Sys2Proof.Machine

/-! SUPPORT. The closed form of the Bresenham path (42_line_rasterizer.md R90, R91): after `k` iterations the path has come `k`
steps along its major axis and `k * minor / major`, rounded to the nearest, along its minor one. -/

namespace Sys2Proof.Machine

/-! ### Steps along the minor axis -/

/-- How many steps along the minor axis go with `k` steps along the major one: `k * minor / major` rounded to the nearest, a
half downwards. -/
def minorSteps (major minor k : Nat) : Nat := (k * minor + (major - 1) / 2) / major

/-- The error term without its sign: half of `major`, plus `major` times the distance along the minor axis by which the path is
ahead of its ideal line. It is at least 0 and less than `major` because the path is the rounded line. -/
def slack (major minor k : Nat) : Int := ((major / 2 : Nat) : Int) + major * minorSteps major minor k - k * minor

theorem minorSteps_bounds {major : Nat} (hpos : 0 < major) (minor k : Nat) :
    major * minorSteps major minor k ≤ k * minor + (major - 1) / 2 ∧
      k * minor + (major - 1) / 2 < major * minorSteps major minor k + major :=
  ⟨Nat.mul_div_le .., Nat.lt_mul_div_succ _ hpos⟩

theorem minorSteps_eq {major minor k q : Nat} (hle : major * q ≤ k * minor + (major - 1) / 2)
    (hlt : k * minor + (major - 1) / 2 < major * q + major) : minorSteps major minor k = q :=
  Nat.div_eq_of_lt_le (by rwa [Nat.mul_comm]) (by rwa [Nat.mul_comm (q + 1), Nat.mul_succ])

theorem slack_bounds {major : Nat} (hpos : 0 < major) (minor k : Nat) :
    0 ≤ slack major minor k ∧ slack major minor k < major := by
  have := minorSteps_bounds hpos minor k
  unfold slack
  omega

theorem minorSteps_zero {major : Nat} (hpos : 0 < major) (minor : Nat) : minorSteps major minor 0 = 0 :=
  minorSteps_eq (by omega) (by omega)

/-- The path ends on its ideal line. -/
theorem minorSteps_major {major : Nat} (hpos : 0 < major) (minor : Nat) : minorSteps major minor major = minor :=
  minorSteps_eq (by omega) (by omega)

theorem minorSteps_le {major : Nat} (hpos : 0 < major) (minor : Nat) {k : Nat} (hk : k ≤ major) :
    minorSteps major minor k ≤ minor := by
  calc minorSteps major minor k
    _ ≤ minorSteps major minor major := Nat.div_le_div_right (Nat.add_le_add_right (Nat.mul_le_mul_right _ hk) _)
    _ = minor := minorSteps_major hpos minor

/-- One more step along the major axis takes one along the minor axis exactly when the slack is less than `minor`. -/
theorem minorSteps_succ {major minor : Nat} (hpos : 0 < major) (hle : minor ≤ major) (k : Nat) :
    minorSteps major minor (k + 1) = minorSteps major minor k + if slack major minor k < minor then 1 else 0 := by
  have hbounds := minorSteps_bounds hpos minor k
  have hk : (k + 1) * minor = k * minor + minor := Nat.succ_mul ..
  have hstep := Nat.mul_add_one major (minorSteps major minor k)
  by_cases h : slack major minor k < minor
  · rw [if_pos h]
    unfold slack at h
    exact minorSteps_eq (by omega) (by omega)
  · rw [if_neg h]
    unfold slack at h
    exact minorSteps_eq (q := minorSteps major minor k) (by omega) (by omega)

theorem slack_succ {major minor : Nat} (hpos : 0 < major) (hle : minor ≤ major) (k : Nat) :
    slack major minor (k + 1) = slack major minor k - minor + if slack major minor k < minor then (major : Int) else 0 := by
  rw [slack, minorSteps_succ hpos hle]
  split <;> rw [slack] <;> push_cast <;> ring

/-- The rounding is to the nearest (R91 e). -/
theorem minorSteps_within_half {major : Nat} (hpos : 0 < major) (minor k : Nat) :
    2 * |(minorSteps major minor k : Int) * major - k * minor| ≤ major := by
  have hslack := slack_bounds hpos minor k
  rw [slack] at hslack
  rw [mul_comm (minorSteps major minor k : Int)]
  rcases abs_cases ((major : Int) * minorSteps major minor k - k * minor) with ⟨h, -⟩ | ⟨h, -⟩ <;> omega

/-! ### The registers of a path -/

/-- A Bresenham path: where it starts, how far it goes in x and in y, and its direction in y (R90). -/
structure LinePath where
  x : Int
  y : Int
  dx : Nat
  dy : Nat
  sy : Int
  dx_pos : 0 < dx
  dy_pos : 0 < dy
  sy_unit : sy = 1 ∨ sy = -1

namespace LinePath

variable (p : LinePath)

/-- Steps of a path along its major axis (R91 a). -/
def length : Nat := max p.dx p.dy

/-- Steps in x after `k` iterations. -/
def xSteps (k : Nat) : Nat := if p.dy < p.dx then k else minorSteps p.dy p.dx k

/-- Steps in y after `k` iterations. -/
def ySteps (k : Nat) : Nat := if p.dy < p.dx then minorSteps p.dx p.dy k else k

/-- `ERR` after `k` iterations. -/
def err (k : Nat) : Int := if p.dy < p.dx then slack p.dx p.dy k else -slack p.dy p.dx k

/-- The registers after `k` iterations. -/
def regs (k : Nat) : LineRegs where
  x := p.x + p.xSteps k
  y := p.y + p.sy * p.ySteps k
  x2 := p.x + p.dx
  y2 := p.y + p.sy * p.dy
  dx := p.dx
  dy := p.dy
  sx := 1
  sy := p.sy
  err := p.err k

/-- The error starts at half the major axis, rounded towards zero (R90 b). -/
theorem err_zero : p.err 0 = if p.dy < p.dx then ((p.dx / 2 : Nat) : Int) else -((p.dy / 2 : Nat) : Int) := by
  simp [err, slack, minorSteps_zero, p.dx_pos, p.dy_pos]

theorem err_bounds (k : Nat) :
    (p.dy < p.dx → 0 ≤ p.err k ∧ p.err k < p.dx) ∧ (¬p.dy < p.dx → -p.dy < p.err k ∧ p.err k ≤ 0) := by
  have hshallow := slack_bounds p.dx_pos p.dy k
  have hsteep := slack_bounds p.dy_pos p.dx k
  constructor <;> intro h
  · rwa [err, if_pos h]
  · rw [err, if_neg h]; omega

/-- The first test of an iteration decides the step in x. -/
theorem xSteps_succ (k : Nat) : p.xSteps (k + 1) = p.xSteps k + if -(p.dx : Int) < p.err k then 1 else 0 := by
  by_cases h : p.dy < p.dx
  · have := slack_bounds p.dx_pos p.dy k
    simp only [xSteps, err, if_pos h]
    rw [if_pos (by omega)]
  · simp only [xSteps, err, if_neg h, neg_lt_neg_iff]
    exact minorSteps_succ p.dy_pos (by omega) k

/-- The second test of an iteration decides the step in y. -/
theorem ySteps_succ (k : Nat) : p.ySteps (k + 1) = p.ySteps k + if p.err k < p.dy then 1 else 0 := by
  by_cases h : p.dy < p.dx
  · simp only [ySteps, err, if_pos h]
    exact minorSteps_succ p.dx_pos (by omega) k
  · have := slack_bounds p.dy_pos p.dx k
    have := p.dy_pos
    simp only [ySteps, err, if_neg h]
    rw [if_pos (by omega)]

theorem err_succ (k : Nat) : p.err (k + 1) =
    p.err k - (if -(p.dx : Int) < p.err k then (p.dy : Int) else 0) + if p.err k < p.dy then (p.dx : Int) else 0 := by
  by_cases h : p.dy < p.dx
  · have := slack_bounds p.dx_pos p.dy k
    simp only [err, if_pos h]
    rw [slack_succ p.dx_pos (by omega), if_pos (by omega : -(p.dx : Int) < slack p.dx p.dy k)]
  · have := slack_bounds p.dy_pos p.dx k
    have := p.dy_pos
    simp only [err, if_neg h, neg_lt_neg_iff]
    rw [slack_succ p.dy_pos (by omega), if_pos (by omega : -slack p.dy p.dx k < p.dy)]
    split <;> ring

/-- An iteration steps by one of the two axes at least (R91 b). -/
theorem steps_move (k : Nat) : p.xSteps (k + 1) ≠ p.xSteps k ∨ p.ySteps (k + 1) ≠ p.ySteps k := by
  by_cases h : p.dy < p.dx
  · exact .inl (by simp [xSteps, h])
  · exact .inr (by simp [ySteps, h])

theorem steps_zero : p.xSteps 0 = 0 ∧ p.ySteps 0 = 0 := by
  unfold xSteps ySteps
  split <;> simp [minorSteps_zero, p.dx_pos, p.dy_pos]

/-- The last iteration stands at the end point (R91 a). -/
theorem steps_length : p.xSteps p.length = p.dx ∧ p.ySteps p.length = p.dy := by
  unfold xSteps ySteps length
  split
  case isTrue h => rw [max_eq_left h.le]; exact ⟨rfl, minorSteps_major p.dx_pos _⟩
  case isFalse h => rw [max_eq_right (not_lt.mp h)]; exact ⟨minorSteps_major p.dy_pos _, rfl⟩

theorem steps_le {k : Nat} (hk : k ≤ p.length) : p.xSteps k ≤ p.dx ∧ p.ySteps k ≤ p.dy := by
  unfold length at hk
  unfold xSteps ySteps
  split
  case isTrue h =>
    rw [max_eq_left h.le] at hk
    exact ⟨hk, minorSteps_le p.dx_pos _ hk⟩
  case isFalse h =>
    rw [max_eq_right (not_lt.mp h)] at hk
    exact ⟨minorSteps_le p.dy_pos _ hk, hk⟩

/-- Only the last iteration stands at the end point. -/
theorem steps_eq_iff {k : Nat} (hk : k ≤ p.length) : (p.xSteps k = p.dx ∧ p.ySteps k = p.dy) ↔ k = p.length := by
  constructor
  · intro h
    have hmajor : (if p.dy < p.dx then p.xSteps k else p.ySteps k) = k := by
      unfold xSteps ySteps
      split <;> rfl
    rw [h.1, h.2] at hmajor
    unfold length at hk ⊢
    split at hmajor <;> omega
  · rintro rfl
    exact p.steps_length

/-! ### The loop -/

/-- One iteration leads from the registers after `k` iterations to those after `k + 1`. -/
theorem advance_regs (k : Nat) : (p.regs k).advance = p.regs (k + 1) := by
  simp only [LineRegs.advance, LineRegs.stepX, LineRegs.stepY, regs, p.xSteps_succ, p.ySteps_succ, p.err_succ, gt_iff_lt]
  by_cases hx : -(p.dx : Int) < p.err k <;> by_cases hy : p.err k < p.dy <;> simp [hx, hy, add_assoc, mul_add]

theorem atEnd_regs {k : Nat} (hk : k ≤ p.length) : (p.regs k).atEnd = decide (k = p.length) := by
  rw [LineRegs.atEnd, ← Bool.decide_and]
  refine decide_eq_decide.mpr (Iff.trans ?_ (p.steps_eq_iff hk))
  simp only [regs]
  rcases p.sy_unit with h | h <;> rw [h] <;> omega

/-- The loop runs through the registers of the path, as far as its bound lets it. -/
theorem lineTrail_regs (n : Nat) {k : Nat} (hk : k ≤ p.length) :
    lineTrail n (p.regs k) = (List.range' k (min n (p.length + 1 - k))).map p.regs := by
  induction n generalizing k with
  | zero => simp [lineTrail]
  | succ n ih =>
    rw [lineTrail, p.atEnd_regs hk]
    by_cases hend : k = p.length
    · simp [hend]
    · have hcount : min (n + 1) (p.length + 1 - k) = min n (p.length + 1 - (k + 1)) + 1 := by omega
      rw [hcount, List.range'_succ, List.map_cons, p.advance_regs, ih (by omega)]
      simp [hend]

theorem lineTrail_regs_zero (n : Nat) :
    lineTrail n (p.regs 0) = (List.range (min n (p.length + 1))).map p.regs := by
  rw [p.lineTrail_regs n (Nat.zero_le _), Nat.sub_zero, List.range_eq_range']

/-- The set-up of R90 is the start of a path. -/
theorem lineRegs_eq_regs : lineRegs p.x p.y (p.x + p.dx) (p.y + p.sy * p.dy) = p.regs 0 := by
  have hdy := p.dy_pos
  have habs : |p.sy * p.dy| = p.dy := by
    rcases p.sy_unit with h | h <;> rw [h] <;> simp
  have hsy : (if p.y < p.y + p.sy * p.dy then (1 : Int) else -1) = p.sy := by
    rcases p.sy_unit with h | h <;> rw [h] <;> split <;> omega
  have hhalf (n : Nat) : truncHalf n = ((n / 2 : Nat) : Int) := rfl
  have hneg (n : Nat) : truncHalf (-n) = -((n / 2 : Nat) : Int) := by rw [truncHalf, Int.neg_tdiv]; rfl
  simp only [lineRegs, habs, hsy, add_sub_cancel_left, hhalf, hneg, gt_iff_lt, Nat.cast_lt, ← p.err_zero, regs, p.steps_zero]
  simp

end LinePath

end Sys2Proof.Machine

/-! SUPPORT. The Bresenham path of a line's operands (42_line_rasterizer.md R89, R90), and its form with an exact half as error
term (R92). -/

namespace Sys2Proof.Machine

namespace LinePath

variable (p : LinePath)

/-! ### The pixels of a path -/

/-- The box between the ends of a path holds every pixel of it (R91 d). -/
theorem regs_in_box {k : Nat} (hk : k ≤ p.length) :
    (p.x ≤ (p.regs k).x ∧ (p.regs k).x ≤ p.x + p.dx) ∧
      min p.y (p.y + p.sy * p.dy) ≤ (p.regs k).y ∧ (p.regs k).y ≤ max p.y (p.y + p.sy * p.dy) := by
  have hsteps := p.steps_le hk
  simp only [regs]
  rcases p.sy_unit with h | h <;> rw [h] <;> omega

/-- From one pixel to the next (R91 b). -/
theorem regs_adjacent (k : Nat) :
    ((p.regs (k + 1)).x = (p.regs k).x ∨ (p.regs (k + 1)).x = (p.regs k).x + 1) ∧
      ((p.regs (k + 1)).y = (p.regs k).y ∨ (p.regs (k + 1)).y = (p.regs k).y + p.sy) ∧
      ¬((p.regs (k + 1)).x = (p.regs k).x ∧ (p.regs (k + 1)).y = (p.regs k).y) := by
  have hmove := p.steps_move k
  have hx : p.xSteps (k + 1) = p.xSteps k ∨ p.xSteps (k + 1) = p.xSteps k + 1 := by
    rw [p.xSteps_succ]
    split <;> simp
  have hy : p.ySteps (k + 1) = p.ySteps k ∨ p.ySteps (k + 1) = p.ySteps k + 1 := by
    rw [p.ySteps_succ]
    split <;> simp
  simp only [regs]
  rcases p.sy_unit with h | h <;> rw [h] <;> omega

/-- The path with the other direction in y. -/
def mirror : LinePath where
  x := p.x
  y := p.y
  dx := p.dx
  dy := p.dy
  sy := -p.sy
  dx_pos := p.dx_pos
  dy_pos := p.dy_pos
  sy_unit := by rcases p.sy_unit with h | h <;> simp [h]

theorem mirror_sy : p.mirror.sy = -p.sy := rfl

theorem mirror_regs_x (k : Nat) : (p.mirror.regs k).x = (p.regs k).x := rfl

theorem mirror_regs_y (k : Nat) : (p.mirror.regs k).y = 2 * p.y - (p.regs k).y := by
  change p.y + -p.sy * p.ySteps k = 2 * p.y - (p.y + p.sy * p.ySteps k)
  ring

/-! ### The error term as an exact half -/

/-- Twice what the truncated start value of the error lost. -/
def lostHalf : Int := if p.dy < p.dx then ((p.dx % 2 : Nat) : Int) else -((p.dy % 2 : Nat) : Int)

/-- The registers after `k` iterations with the error held doubled (R92). -/
def exactRegs (k : Nat) : LineRegs := { p.regs k with err := 2 * p.err k + p.lostHalf }

theorem exact_xTest (k : Nat) : 2 * p.err k + p.lostHalf > -(2 * p.dx) ↔ -(p.dx : Int) < p.err k := by
  have herr := p.err_bounds k
  unfold lostHalf
  split <;> omega

theorem exact_yTest (k : Nat) : 2 * p.err k + p.lostHalf < 2 * p.dy ↔ p.err k < p.dy := by
  have herr := p.err_bounds k
  unfold lostHalf
  split <;> omega

/-- The lost half never decides a test, so it is carried along unchanged. -/
theorem advanceExact_exactRegs (k : Nat) : (p.exactRegs k).advanceExact = p.exactRegs (k + 1) := by
  simp only [LineRegs.advanceExact, exactRegs, regs, p.exact_xTest, p.exact_yTest, p.xSteps_succ, p.ySteps_succ, p.err_succ]
  by_cases hx : -(p.dx : Int) < p.err k <;> by_cases hy : p.err k < p.dy <;> simp [hx, hy, add_assoc, mul_add] <;> ring

theorem exactRegs_zero :
    p.exactRegs 0 = { p.regs 0 with err := if (p.regs 0).dx > (p.regs 0).dy then (p.regs 0).dx else -(p.regs 0).dy } := by
  have herr : 2 * p.err 0 + p.lostHalf = if (p.dx : Int) > p.dy then (p.dx : Int) else -p.dy := by
    rw [p.err_zero, lostHalf]
    split <;> split <;> omega
  rw [exactRegs, herr]
  rfl

theorem exactTrail_points (n k : Nat) :
    (exactTrail n (p.exactRegs k)).map (fun r => (r.x, r.y)) = (lineTrail n (p.regs k)).map (fun r => (r.x, r.y)) := by
  induction n generalizing k with
  | zero => rfl
  | succ n ih =>
    have hend : (p.exactRegs k).atEnd = (p.regs k).atEnd := rfl
    rw [exactTrail, lineTrail, hend, p.advanceExact_exactRegs, p.advance_regs, List.map_cons, List.map_cons]
    split
    · rfl
    · rw [ih]; rfl

end LinePath

/-- There is a path downwards from any point, of any extent. -/
theorem exists_downward (x y : Int) {dx dy : Int} (hdx : 0 < dx) (hdy : 0 < dy) :
    ∃ p : LinePath, p.x = x ∧ p.y = y ∧ (p.dx : Int) = dx ∧ (p.dy : Int) = dy ∧ p.sy = 1 :=
  ⟨⟨x, y, dx.toNat, dy.toNat, 1, by omega, by omega, .inl rfl⟩, rfl, rfl, Int.toNat_of_nonneg hdx.le,
    Int.toNat_of_nonneg hdy.le, rfl⟩

/-! ### The path of a line's operands -/

/-- A path leads from one point to another, the first with the smaller x. -/
structure LinePath.Joins (p : LinePath) (x1 y1 x2 y2 : Byte) : Prop where
  startX : p.x = coord x1
  startY : p.y = coord y1
  endX : p.x + p.dx = coord x2
  endY : p.y + p.sy * p.dy = coord y2

theorem exists_joins {x1 y1 x2 y2 : Byte} (hx : x1.toNat < x2.toNat) (hy : y1.toNat ≠ y2.toNat) :
    ∃ p : LinePath, p.Joins x1 y1 x2 y2 := by
  obtain ⟨sy, hunit, hend⟩ : ∃ sy : Int, (sy = 1 ∨ sy = -1) ∧
      coord y1 + sy * (max y1.toNat y2.toNat - min y1.toNat y2.toNat : Nat) = coord y2 := by
    unfold coord
    rcases Nat.lt_or_gt_of_ne hy with h | h
    · exact ⟨1, .inl rfl, by omega⟩
    · exact ⟨-1, .inr rfl, by omega⟩
  refine ⟨⟨coord x1, coord y1, x2.toNat - x1.toNat, _, sy, by omega, by omega, hunit⟩, rfl, rfl, ?_, hend⟩
  simp only [coord]
  omega

namespace LinePath.Joins

variable {p : LinePath} {x1 y1 x2 y2 : Byte} (h : p.Joins x1 y1 x2 y2)
include h

theorem x_extent : p.dx = x2.toNat - x1.toNat ∧ x1.toNat < x2.toNat := by
  have hpos := p.dx_pos
  have hend := h.endX
  rw [h.startX] at hend
  simp only [coord] at hend
  omega

theorem y_extent : p.dy = max y1.toNat y2.toNat - min y1.toNat y2.toNat ∧ (p.sy = 1 ↔ y1.toNat < y2.toNat) := by
  have hpos := p.dy_pos
  have hend := h.endY
  rw [h.startY] at hend
  simp only [coord] at hend
  rcases p.sy_unit with hsy | hsy <;> rw [hsy] at hend ⊢ <;> omega

theorem lineSetup_eq : lineSetup (coord x1) (coord y1) (coord x2) (coord y2) = p.regs 0 := by
  have hpos := p.dx_pos
  rw [← h.startX, ← h.startY, ← h.endX, ← h.endY, lineSetup, if_neg (by omega), p.lineRegs_eq_regs]

/-- The loop's bound is never short (R91 a). -/
theorem bresenham_eq : bresenham x1 y1 x2 y2 = (List.range (p.length + 1)).map p.regs := by
  have hdx := h.x_extent
  have hdy := h.y_extent
  have hfuel : p.length + 1 ≤ Config.lineFuel := by
    unfold LinePath.length Config.lineFuel
    omega
  rw [bresenham, h.lineSetup_eq, p.lineTrail_regs_zero, Nat.min_eq_right hfuel]

end LinePath.Joins

/-- The set-up swaps the end points so that the smaller x comes first (R90). -/
theorem lineSetup_swap {x1 x2 : Int} (y1 y2 : Int) (hx : x1 ≠ x2) : lineSetup x1 y1 x2 y2 = lineSetup x2 y2 x1 y1 := by
  unfold lineSetup
  rcases lt_or_gt_of_ne hx with h | h
  · rw [if_neg h.not_gt, if_pos h]
  · rw [if_pos h, if_neg h.not_gt]

theorem coord_ne {x1 x2 : Byte} (h : x1 ≠ x2) : coord x1 ≠ coord x2 := by
  have := BitVec.toNat_ne_iff_ne.mpr h
  unfold coord
  omega

theorem bresenham_swap {x1 x2 : Byte} (y1 y2 : Byte) (hx : x1 ≠ x2) :
    bresenham x1 y1 x2 y2 = bresenham x2 y2 x1 y1 := by
  rw [bresenham, lineSetup_swap _ _ (coord_ne hx), bresenham]

/-- The Bresenham path of two points is the path between them, from the one with the smaller x. -/
theorem exists_linePath {x1 y1 x2 y2 : Byte} (hy : y1 ≠ y2) (hx : x1 ≠ x2) :
    ∃ p : LinePath, lineSetup (coord x1) (coord y1) (coord x2) (coord y2) = p.regs 0 ∧
      bresenham x1 y1 x2 y2 = (List.range (p.length + 1)).map p.regs ∧ (p.Joins x1 y1 x2 y2 ∨ p.Joins x2 y2 x1 y1) := by
  have hy' := BitVec.toNat_ne_iff_ne.mpr hy
  rcases Nat.lt_or_gt_of_ne (BitVec.toNat_ne_iff_ne.mpr hx) with h | h
  · obtain ⟨p, hp⟩ := exists_joins h hy'
    exact ⟨p, hp.lineSetup_eq, hp.bresenham_eq, .inl hp⟩
  · obtain ⟨p, hp⟩ := exists_joins h hy'.symm
    rw [lineSetup_swap _ _ (coord_ne hx), bresenham_swap _ _ hx]
    exact ⟨p, hp.lineSetup_eq, hp.bresenham_eq, .inr hp⟩

/-- Every iteration stands in the bounding box of the end points (R89, R91 d). -/
theorem bresenham_in_box {x1 y1 x2 y2 : Byte} (hy : y1 ≠ y2) (hx : x1 ≠ x2) {r : LineRegs}
    (hr : r ∈ bresenham x1 y1 x2 y2) :
    (min (coord x1) (coord x2) ≤ r.x ∧ r.x ≤ max (coord x1) (coord x2)) ∧
      min (coord y1) (coord y2) ≤ r.y ∧ r.y ≤ max (coord y1) (coord y2) := by
  obtain ⟨p, -, hpath, hjoins⟩ := exists_linePath hy hx
  rw [hpath, List.mem_map] at hr
  obtain ⟨k, hk, rfl⟩ := hr
  have hbox := p.regs_in_box (Nat.le_of_lt_succ (List.mem_range.mp hk))
  rcases hjoins with h | h <;> rw [h.endX, h.startX, h.endY, h.startY] at hbox <;> omega

end Sys2Proof.Machine

/-! SUPPORT. The events of the pixel and line family (42_line_rasterizer.md R84 to R88, R90) as the numbers the rules write
out, path by path, and their windows. -/

namespace Sys2Proof.Machine

theorem fill_eq_windowFilled (x y w h : Nat) (color : Color) :
    fill x y w h color = windowFilled x y w h (List.replicate (w * h) color.toNat) := by
  rw [fill, emitWindow_stream, List.map_replicate]

theorem pixel_eq_windowFilled (x y : Nat) (color : Color) : pixel x y color = windowFilled x y 1 1 [color.toNat] :=
  fill_eq_windowFilled x y 1 1 color

/-- The gap between two coordinates, from either side. -/
theorem natAbs_coord_sub (u v : Byte) : (coord v - coord u).natAbs = max u.toNat v.toNat - min u.toNat v.toNat := by
  unfold coord
  omega

theorem min_coord (u v : Byte) : min (coord u) (coord v) = (min u.toNat v.toNat : Nat) := (Nat.cast_min ..).symm

/-! ### The three paths -/

theorem lineEvents_horizontal (x1 y x2 : Byte) (color : Color) :
    lineEvents x1 y x2 y color =
      fill (min x1.toNat x2.toNat : Nat) y.toNat (max x1.toNat x2.toNat - min x1.toNat x2.toNat + 1) 1 color := by
  rw [lineEvents, if_pos rfl, min_coord, natAbs_coord_sub, coord]

theorem lineEvents_vertical (x : Byte) {y1 y2 : Byte} (hy : y1 ≠ y2) (color : Color) :
    lineEvents x y1 x y2 color =
      fill x.toNat (min y1.toNat y2.toNat : Nat) 1 (max y1.toNat y2.toNat - min y1.toNat y2.toNat + 1) color := by
  rw [lineEvents, if_neg hy, if_pos rfl, min_coord, natAbs_coord_sub, coord]

theorem lineEvents_bresenham {x1 y1 x2 y2 : Byte} (hy : y1 ≠ y2) (hx : x1 ≠ x2) (color : Color) :
    lineEvents x1 y1 x2 y2 color = (bresenham x1 y1 x2 y2).flatMap (fun r => pixel r.x r.y color) := by
  rw [lineEvents, if_neg hy, if_neg hx]

/-- A line does not depend on which end point is given first (R91 g, R87, R88). -/
theorem lineEvents_swap (x1 y1 x2 y2 : Byte) (color : Color) :
    lineEvents x1 y1 x2 y2 color = lineEvents x2 y2 x1 y1 color := by
  by_cases hy : y1 = y2
  · subst hy
    rw [lineEvents_horizontal, lineEvents_horizontal, min_comm, max_comm]
  · by_cases hx : x1 = x2
    · subst hx
      rw [lineEvents_vertical _ hy, lineEvents_vertical _ (Ne.symm hy), min_comm, max_comm]
    · rw [lineEvents_bresenham hy hx, lineEvents_bresenham (Ne.symm hy) (Ne.symm hx), bresenham_swap _ _ hx]

/-- The pixels of a Bresenham path have no negative coordinate. -/
theorem bresenham_toNat {x1 y1 x2 y2 : Byte} (hy : y1 ≠ y2) (hx : x1 ≠ x2) {r : LineRegs}
    (hr : r ∈ bresenham x1 y1 x2 y2) : (r.x.toNat : Int) = r.x ∧ (r.y.toNat : Int) = r.y := by
  have hbox := bresenham_in_box hy hx hr
  unfold coord at hbox
  omega

/-! ### The pixels of the Bresenham path -/

/-- The pixels of the Bresenham path, as they are sent. -/
def drawnPoints (x1 y1 x2 y2 : Byte) : List (Nat × Nat) :=
  (bresenham x1 y1 x2 y2).map (fun r => (r.x.toNat, r.y.toNat))

theorem lineEvents_eq_pointEvents {x1 y1 x2 y2 : Byte} (hy : y1 ≠ y2) (hx : x1 ≠ x2) (color : Color) :
    lineEvents x1 y1 x2 y2 color = pointEvents color (drawnPoints x1 y1 x2 y2) := by
  rw [lineEvents_bresenham hy hx, pointEvents, drawnPoints, List.flatMap_map]
  refine List.flatMap_congr fun r hr => ?_
  rw [← pixel_eq_windowFilled, (bresenham_toNat hy hx hr).1, (bresenham_toNat hy hx hr).2]

/-- There are `max(DX, DY) + 1` of them (R91 a). -/
theorem length_drawnPoints {x1 y1 x2 y2 : Byte} (hy : y1 ≠ y2) (hx : x1 ≠ x2) :
    (drawnPoints x1 y1 x2 y2).length =
      max (max x1.toNat x2.toNat - min x1.toNat x2.toNat) (max y1.toNat y2.toNat - min y1.toNat y2.toNat) + 1 := by
  obtain ⟨p, -, hpath, hjoins⟩ := exists_linePath hy hx
  rw [drawnPoints, hpath, List.length_map, List.length_map, List.length_range, LinePath.length]
  rcases hjoins with h | h <;> have := h.x_extent <;> have := h.y_extent <;> omega

/-- They lead from the end point with the smaller x to the other (R91 a, g). -/
theorem ends_drawnPoints {x1 y1 x2 y2 : Byte} (hy : y1 ≠ y2) (hx : x1 ≠ x2) :
    ((drawnPoints x1 y1 x2 y2).head?, (drawnPoints x1 y1 x2 y2).getLast?) =
      if x1.toNat < x2.toNat then (some (x1.toNat, y1.toNat), some (x2.toNat, y2.toNat))
        else (some (x2.toNat, y2.toNat), some (x1.toNat, y1.toNat)) := by
  obtain ⟨p, -, hpath, hjoins⟩ := exists_linePath hy hx
  have hends : ((drawnPoints x1 y1 x2 y2).head?, (drawnPoints x1 y1 x2 y2).getLast?) =
      (some (p.x.toNat, p.y.toNat), some ((p.x + p.dx).toNat, (p.y + p.sy * p.dy).toNat)) := by
    simp [drawnPoints, hpath, List.head?_range, List.getLast?_range, LinePath.regs, p.steps_zero, p.steps_length]
  rw [hends]
  rcases hjoins with h | h
  · rw [if_pos h.x_extent.2, h.endX, h.endY, h.startX, h.startY]
    rfl
  · rw [if_neg h.x_extent.2.not_gt, h.endX, h.endY, h.startX, h.startY]
    rfl

/-- The path goes down the rows exactly when the end point with the smaller x is the upper one. -/
theorem sy_eq_one_iff {p : LinePath} {x1 y1 x2 y2 : Byte} (h : p.Joins x1 y1 x2 y2 ∨ p.Joins x2 y2 x1 y1) :
    p.sy = 1 ↔ (x1.toNat < x2.toNat ↔ y1.toNat < y2.toNat) := by
  have hpos := p.dy_pos
  rcases h with h | h <;> have := h.x_extent <;> have := h.y_extent <;> omega

/-- Each is beside the one before, x never decreases, and y goes in one direction (R91 b). -/
theorem isChain_drawnPoints {x1 y1 x2 y2 : Byte} (hy : y1 ≠ y2) (hx : x1 ≠ x2) :
    List.IsChain (fun p q : Nat × Nat => (q.1 = p.1 ∨ q.1 = p.1 + 1) ∧ q ≠ p ∧
      (q.2 = p.2 ∨ if (x1.toNat < x2.toNat ↔ y1.toNat < y2.toNat) then q.2 = p.2 + 1 else p.2 = q.2 + 1))
      (drawnPoints x1 y1 x2 y2) := by
  obtain ⟨p, -, hpath, hjoins⟩ := exists_linePath hy hx
  have hnat : ∀ k ≤ p.length, ((p.regs k).x.toNat : Int) = (p.regs k).x ∧ ((p.regs k).y.toNat : Int) = (p.regs k).y :=
    fun k hk => bresenham_toNat hy hx (hpath ▸ List.mem_map_of_mem (List.mem_range.mpr (Nat.lt_succ_of_le hk)))
  rw [drawnPoints, hpath, List.map_map, List.isChain_map, List.isChain_range_succ]
  intro k hk
  have hfrom := hnat k hk.le
  have hto := hnat (k + 1) hk
  have hadjacent := p.regs_adjacent k
  simp only [Function.comp_apply, Nat.succ_eq_add_one, ne_eq, Prod.mk.injEq, ← sy_eq_one_iff hjoins]
  rcases p.sy_unit with h | h <;> rw [h] at hadjacent ⊢ <;> simp only [reduceIte, reduceCtorEq] <;> omega

/-! ### Completing -/

theorem bresenham_eq_cons (x1 y1 x2 y2 : Byte) : ∃ r rest, bresenham x1 y1 x2 y2 = r :: rest := ⟨_, _, rfl⟩

/-- A line leaves the lines idle from wherever they stand: there is at least one pixel. -/
theorem linesIdle_lineEvents (ce : Bool) (rs : RsMode) (x1 y1 x2 y2 : Byte) (color : Color) :
    ceAfter ce (lineEvents x1 y1 x2 y2 color) = false ∧ rsAfter rs (lineEvents x1 y1 x2 y2 color) = .data := by
  unfold lineEvents
  split
  · exact ⟨ceAfter_fill .., rsAfter_fill ..⟩
  · split
    · exact ⟨ceAfter_fill .., rsAfter_fill ..⟩
    · obtain ⟨r, rest, hpath⟩ := bresenham_eq_cons x1 y1 x2 y2
      have hrest : IdleTrace (rest.flatMap (fun r => pixel r.x r.y color)) := .flatMap _ _ fun _ => idleTrace_fill ..
      rw [hpath, List.flatMap_cons, ceAfter_append, ceAfter_pixel, rsAfter_append, rsAfter_pixel]
      exact ⟨hrest.ce, hrest.rs⟩

theorem drawline_completed (s : State) (x1 y1 x2 y2 : Byte) (color : Color) :
    ∃ t, exec (.drawline x1 y1 x2 y2 color) s = .next t ∧ Completed s t (lineEvents x1 y1 x2 y2 color) [] := by
  obtain ⟨hce, hrs⟩ := linesIdle_lineEvents s.ce s.rs x1 y1 x2 y2 color
  exact completed_of_bus (exec_drawline ..) hce hrs

end Sys2Proof.Machine

/-! SUPPORT. What the pixels of a line do to the reference sink (20_memory.md R41). -/

namespace Sys2Proof.Machine

theorem Bursts.sessions_append_eq {es : List Event} (h : Bursts es) (fs : List Event) :
    sessions (es ++ fs) = sessions es ++ sessions fs := by
  obtain ⟨ss, -, hss⟩ := h.sessions_append
  have hes := hss []
  rw [List.append_nil] at hes
  rw [hss, hes, show sessions [] = [] from rfl, List.append_nil]

/-- One colour streamed into a window writes the window's pixels in row-major order (R41). -/
theorem fillWindow_replicate (win : Window) (c : BitVec 12) (k n : Nat) :
    fillWindow win k (List.replicate n c) =
      (List.range' k n).map (fun i => ⟨win.x + i % win.width, win.y + i / win.width, c⟩) := by
  induction n generalizing k with
  | zero => rfl
  | succ n ih => rw [List.replicate_succ, fillWindow, ih, List.range'_succ, List.map_cons]

/-- What a window filled with one colour does to the sink (R72, R41). -/
theorem receive_fill_color (k : Sink) {r : Window} (hok : r.ok = true) (more : List Window) (color : Color)
    (rest : List Session) :
    k.receive (r :: more) (sessions (fill r.x r.y r.width r.height color) ++ rest) =
      Sink.receive more ⟨some r, false, k.writes ++ (List.range (r.width * r.height)).map
        (fun i => ⟨r.x + i % r.width, r.y + i / r.width, color12 color⟩)⟩ rest := by
  rw [fill, receive_fill k r more _ rest hok (List.length_replicate ..).le, List.map_replicate, fillWindow_replicate,
    List.range_eq_range']

/-- The view of a command that fills one window of the screen with one colour. -/
theorem pixelView_fill {m : Memory} {i : Instr} {r : Window} (hwindows : windowsOf m i = [r]) (hok : r.ok = true)
    (color : Color) :
    pixelView m i (fill r.x r.y r.width r.height color) = some ((List.range (r.width * r.height)).map
      (fun i => ⟨r.x + i % r.width, r.y + i / r.width, color12 color⟩)) := by
  rw [pixelView, hwindows, ← List.append_nil (sessions _), receive_fill_color _ hok]
  rfl

theorem windowOk_iff (x y width height : Nat) :
    windowOk x y width height = true ↔ 1 ≤ width ∧ 1 ≤ height ∧ x + width ≤ 101 ∧ y + height ≤ 80 := by
  simp only [windowOk, Bool.and_eq_true, decide_eq_true_eq, and_assoc]
  rfl

theorem pixelOk_iff (x y : Nat) : pixelOk x y = true ↔ x < 101 ∧ y < 80 := by
  simp only [pixelOk, Bool.and_eq_true, decide_eq_true_eq]
  rfl

/-- One row of the screen is written from left to right. -/
theorem pixelView_row {m : Memory} {i : Instr} {x y n : Nat} (hwindows : windowsOf m i = [⟨x, y, n, 1⟩])
    (hok : windowOk x y n 1 = true) (color : Color) :
    pixelView m i (fill x y n 1 color) = some ((List.range n).map (fun j => ⟨x + j, y, color12 color⟩)) := by
  refine (pixelView_fill hwindows hok color).trans ?_
  rw [Nat.mul_one]
  refine congrArg some (List.map_congr_left fun j hj => ?_)
  rw [Nat.mod_eq_of_lt (List.mem_range.mp hj), Nat.div_eq_of_lt (List.mem_range.mp hj), Nat.add_zero]

/-- One column of the screen is written from top to bottom. -/
theorem pixelView_column {m : Memory} {i : Instr} {x y n : Nat} (hwindows : windowsOf m i = [⟨x, y, 1, n⟩])
    (hok : windowOk x y 1 n = true) (color : Color) :
    pixelView m i (fill x y 1 n color) = some ((List.range n).map (fun j => ⟨x, y + j, color12 color⟩)) := by
  refine (pixelView_fill hwindows hok color).trans ?_
  simp [Nat.mod_one]

/-- The window of one pixel. -/
def LineRegs.window (r : LineRegs) : Window := ⟨r.x.toNat, r.y.toNat, 1, 1⟩

/-- What pixels of the screen drawn one by one do to the sink: each is written, in order (R84, R41). -/
theorem receive_pixels (k : Sink) (color : Color) (rs : List LineRegs)
    (hrs : ∀ r ∈ rs, (r.x.toNat : Int) = r.x ∧ (r.y.toNat : Int) = r.y ∧ r.window.ok = true) :
    (k.receive (rs.map LineRegs.window) (sessions (rs.flatMap (fun r => pixel r.x r.y color)))).map (·.writes) =
      some (k.writes ++ rs.map (fun r => ⟨r.x.toNat, r.y.toNat, color12 color⟩)) := by
  induction rs generalizing k with
  | nil => simp [sessions, sessionsFrom, Sink.receive]
  | cons r rest ih =>
    obtain ⟨⟨hx, hy, hok⟩, hrest⟩ := List.forall_mem_cons.mp hrs
    have hpixel : pixel r.x r.y color = fill r.window.x r.window.y r.window.width r.window.height color := by
      rw [pixel, ← hx, ← hy]
      rfl
    rw [List.flatMap_cons, hpixel, (Bursts.fill ..).sessions_append_eq, List.map_cons, receive_fill_color _ hok, ih _ hrest]
    simp [LineRegs.window]

/-! ### The views of a line's paths -/

section
variable (m : Memory) {x1 y1 x2 y2 : Byte} (color : Color)

theorem pixelView_horizontal (hstart : pixelOk x1.toNat y1.toNat = true) (hend : pixelOk x2.toNat y1.toNat = true) :
    pixelView m (.drawline x1 y1 x2 y1 color) (lineEvents x1 y1 x2 y1 color) =
      some ((List.range (max x1.toNat x2.toNat - min x1.toNat x2.toNat + 1)).map
        (fun i => ⟨min x1.toNat x2.toNat + i, y1.toNat, color12 color⟩)) := by
  rw [pixelOk_iff] at hstart hend
  rw [lineEvents_horizontal]
  refine pixelView_row ?_ ((windowOk_iff ..).mpr (by omega)) color
  simp [windowsOf, natAbs_coord_sub]

theorem pixelView_vertical (hy : y1 ≠ y2) (hstart : pixelOk x1.toNat y1.toNat = true)
    (hend : pixelOk x1.toNat y2.toNat = true) :
    pixelView m (.drawline x1 y1 x1 y2 color) (lineEvents x1 y1 x1 y2 color) =
      some ((List.range (max y1.toNat y2.toNat - min y1.toNat y2.toNat + 1)).map
        (fun i => ⟨x1.toNat, min y1.toNat y2.toNat + i, color12 color⟩)) := by
  rw [pixelOk_iff] at hstart hend
  rw [lineEvents_vertical _ hy]
  refine pixelView_column ?_ ((windowOk_iff ..).mpr (by omega)) color
  simp [windowsOf, natAbs_coord_sub, hy]

theorem pixelView_bresenham (hy : y1 ≠ y2) (hx : x1 ≠ x2) (hstart : pixelOk x1.toNat y1.toNat = true)
    (hend : pixelOk x2.toNat y2.toNat = true) :
    pixelView m (.drawline x1 y1 x2 y2 color) (lineEvents x1 y1 x2 y2 color) =
      some ((linePoints x1 y1 x2 y2).map (fun p => ⟨p.1.toNat, p.2.toNat, color12 color⟩)) := by
  rw [pixelOk_iff] at hstart hend
  have hwindows : windowsOf m (.drawline x1 y1 x2 y2 color) = (bresenham x1 y1 x2 y2).map LineRegs.window := by
    rw [windowsOf, if_neg hy, if_neg hx]
    rfl
  rw [lineEvents_bresenham hy hx, pixelView, hwindows, receive_pixels, linePoints, List.map_map]
  · rfl
  · intro r hr
    have hbox := bresenham_in_box hy hx hr
    obtain ⟨hrx, hry⟩ := bresenham_toNat hy hx hr
    refine ⟨hrx, hry, (windowOk_iff ..).mpr ?_⟩
    unfold coord at hbox
    simp only [LineRegs.window]
    omega

end

end Sys2Proof.Machine

/-! The statements about the pixel and line family (42_line_rasterizer.md). -/

namespace Sys2Proof.Machine

/-- Settles O29: one pixel is one filled window. -/
theorem drawpixelCompletes : Obligations.DrawpixelCompletes := by
  unfold Obligations.DrawpixelCompletes
  intro s x y color
  rw [← pixel_eq_windowFilled]
  exact completed_of_bus (exec_drawpixel ..) (ceAfter_pixel ..) (rsAfter_pixel ..)

/-- Settles O30: the horizontal path is one filled window; a single point's is 1 by 1. -/
theorem horizontalLineCompletes : Obligations.HorizontalLineCompletes := by
  unfold Obligations.HorizontalLineCompletes
  intro s x1 y x2 color
  have hevents := lineEvents_horizontal x1 y x2 color
  rw [fill_eq_windowFilled, Nat.mul_one] at hevents
  rw [← hevents]
  refine ⟨drawline_completed .., ?_⟩
  have hpoint : lineEvents x1 y x1 y color = pixel (coord x1) (coord y) color := by
    simp [lineEvents_horizontal, pixel, coord]
  rw [exec_drawline, exec_drawpixel, hpoint]

/-- Settles O31: the vertical path is one filled window. -/
theorem verticalLineCompletes : Obligations.VerticalLineCompletes := by
  unfold Obligations.VerticalLineCompletes
  intro s x y1 y2 color hy
  have hevents := lineEvents_vertical x hy color
  rw [fill_eq_windowFilled, Nat.one_mul] at hevents
  rw [← hevents]
  exact drawline_completed ..

/-- Settles O32: the pixels are those of the path between the end points. -/
theorem bresenhamLineCompletes : Obligations.BresenhamLineCompletes := by
  unfold Obligations.BresenhamLineCompletes
  intro s x1 y1 x2 y2 color hy hx
  obtain ⟨t, hexec, hdone⟩ := drawline_completed s x1 y1 x2 y2 color
  rw [lineEvents_eq_pointEvents hy hx] at hdone
  refine ⟨t, _, hexec, hdone, length_drawnPoints hy hx, ends_drawnPoints hy hx, isChain_drawnPoints hy hx, ?_⟩
  intro point hpoint
  obtain ⟨r, hr, rfl⟩ := List.mem_map.mp hpoint
  have hbox := bresenham_in_box hy hx hr
  unfold coord at hbox
  simp only
  omega

/-- Settles O33: from the bounds of the error at the pixels and the box of the path. -/
theorem bresenhamRegisterRanges : Obligations.BresenhamRegisterRanges := by
  unfold Obligations.BresenhamRegisterRanges
  intro x1 y1 x2 y2 hy hx r hr
  have hbox := bresenham_in_box hy hx hr
  obtain ⟨p, -, hpath, hjoins⟩ := exists_linePath hy hx
  rw [hpath, List.mem_map] at hr
  obtain ⟨k, -, rfl⟩ := hr
  have hdx := p.dx_pos
  have hdy := p.dy_pos
  have hsize : p.dx ≤ 255 ∧ p.dy ≤ 255 := by
    rcases hjoins with h | h <;> have := h.x_extent <;> have := h.y_extent <;> omega
  have herr : -254 ≤ p.err k ∧ p.err k ≤ 254 := by
    have := p.err_bounds k
    omega
  have hfirst : -512 ≤ ((p.regs k).stepX (p.regs k).err).err ∧ ((p.regs k).stepX (p.regs k).err).err ≤ 511 := by
    unfold LineRegs.stepX
    split <;> simp only [LinePath.regs] <;> omega
  refine ⟨?_, ?_, herr, hfirst, hbox⟩ <;> simp only [LinePath.regs] <;> omega

/-- Settles O34: along the major axis the path has come `k` steps after `k` iterations. -/
theorem bresenhamSkipsNothing : Obligations.BresenhamSkipsNothing := by
  unfold Obligations.BresenhamSkipsNothing
  intro x1 y1 x2 y2 hy hx
  obtain ⟨p, hsetup, hpath, -⟩ := exists_linePath hy hx
  rw [hsetup, linePoints, hpath]
  simp only [List.map_map]
  change if (p.dx : Int) > p.dy then _ else _
  split
  case isTrue h =>
    have hlt : p.dy < p.dx := by omega
    have hlength : p.length = p.dx := max_eq_left hlt.le
    have hx : ∀ k, (p.regs k).x = (p.regs 0).x + k := by simp [LinePath.regs, LinePath.xSteps, hlt]
    rw [hlength, show (p.regs 0).dx.toNat = p.dx from rfl]
    exact List.map_congr_left fun k _ => hx k
  case isFalse h =>
    have hle : ¬p.dy < p.dx := by omega
    have hlength : p.length = p.dy := max_eq_right (not_lt.mp hle)
    have hy : ∀ k, (p.regs k).y = (p.regs 0).y + (p.regs 0).sy * k := by simp [LinePath.regs, LinePath.ySteps, hle]
    rw [hlength, show (p.regs 0).dy.toNat = p.dy from rfl]
    exact List.map_congr_left fun k _ => hy k

/-- Settles O35: along the minor axis the path has come `k * minor / major` steps, rounded to the nearest. -/
theorem bresenhamWithinHalfPixel : Obligations.BresenhamWithinHalfPixel := by
  unfold Obligations.BresenhamWithinHalfPixel
  intro x1 y1 x2 y2 hy hx
  obtain ⟨p, hsetup, hpath, -⟩ := exists_linePath hy hx
  rw [hsetup, linePoints, hpath]
  intro r point hpoint
  rw [List.map_map, List.mem_map] at hpoint
  obtain ⟨k, -, rfl⟩ := hpoint
  have habs : |p.sy * (p.ySteps k : Int)| = p.ySteps k := by
    rcases p.sy_unit with h | h <;> rw [h] <;> simp
  simp only [r, Function.comp_apply, LinePath.regs, LinePath.steps_zero, Nat.cast_zero, mul_zero, add_zero,
    add_sub_cancel_left, habs, gt_iff_lt, Nat.cast_lt]
  split
  · next h =>
    simp only [LinePath.xSteps, LinePath.ySteps, if_pos h]
    exact minorSteps_within_half p.dx_pos p.dy k
  · next h =>
    simp only [LinePath.xSteps, LinePath.ySteps, if_neg h]
    exact minorSteps_within_half p.dy_pos p.dx k

/-- Settles O36: the two lines are the paths of the two directions in y. -/
theorem bresenhamMirror : Obligations.BresenhamMirror := by
  unfold Obligations.BresenhamMirror
  intro n x y dx dy hdx hdy
  obtain ⟨p, rfl, rfl, rfl, rfl, hsy⟩ := exists_downward x y hdx hdy
  have hdown : lineRegs p.x p.y (p.x + p.dx) (p.y + p.dy) = p.regs 0 := by
    rw [← p.lineRegs_eq_regs, hsy, one_mul]
  have hup : lineRegs p.x p.y (p.x + p.dx) (p.y - p.dy) = p.mirror.regs 0 := by
    rw [← p.mirror.lineRegs_eq_regs, p.mirror_sy, hsy, neg_one_mul, ← sub_eq_add_neg]
    rfl
  rw [hdown, hup, p.lineTrail_regs_zero, p.mirror.lineTrail_regs_zero, List.map_map, List.map_map]
  refine List.map_congr_left fun k _ => ?_
  exact Prod.ext (p.mirror_regs_x k) (p.mirror_regs_y k)

/-- Settles O37: the events do not depend on which end point is given first. -/
theorem drawlineEndpointsSwap : Obligations.DrawlineEndpointsSwap := by
  unfold Obligations.DrawlineEndpointsSwap
  intro s x1 y1 x2 y2 color
  rw [exec_drawline, exec_drawline, lineEvents_swap]

/-- Settles O38: the half lost by the truncation is carried along and decides no test. -/
theorem bresenhamMatchesExactHalf : Obligations.BresenhamMatchesExactHalf := by
  unfold Obligations.BresenhamMatchesExactHalf
  intro x1 y1 x2 y2 hy hx
  obtain ⟨p, hsetup, -, -⟩ := exists_linePath hy hx
  simp only [exactPoints, linePoints, bresenham, hsetup]
  rw [← p.exactRegs_zero, p.exactTrail_points]

/-- Settles O51: each window of the line lies on the screen, and the sink writes it. -/
theorem drawlinePicture : Obligations.DrawlinePicture := by
  unfold Obligations.DrawlinePicture
  intro s x1 y1 x2 y2 color hstart hend
  obtain ⟨t, hexec, hdone⟩ := drawline_completed s x1 y1 x2 y2 color
  refine ⟨t, _, hexec, hdone.trace, ?_⟩
  by_cases hy : y1 = y2
  · subst hy
    rw [if_pos rfl]
    exact pixelView_horizontal s.mem color hstart hend
  · rw [if_neg hy]
    by_cases hx : x1 = x2
    · subst hx
      rw [if_pos rfl]
      exact pixelView_vertical s.mem color hy hstart hend
    · rw [if_neg hx]
      exact pixelView_bresenham s.mem color hy hx hstart hend

end Sys2Proof.Machine

/-! SUPPORT. A string with no terminator (43_text_renderer.md R97): no number of passes ends it, so it is left in progress by
every step. -/

namespace Sys2Proof.Machine

/-- No code in `TEXT` is the terminator (R29). -/
def Memory.Unterminated (m : Memory) : Prop := ∀ a : Addr, m.textRead a ≠ Config.textEnd

theorem drawChars_of_unterminated {m : Memory} (h : m.Unterminated) (n : Nat) (r : Scratch) :
    (drawChars m n r).ended = false := by
  induction n generalizing r with
  | zero => rfl
  | succ n ih => exact (drawChars_of_char n (h r.ptr)).1.trans (ih _)

/-- Going on with a string finds no end: `busy` is up, and the command index stands (R97). -/
theorem runString_of_unterminated {s : State} (h : s.mem.Unterminated) (r : Scratch) :
    (s.runString r).busy = true ∧ (s.runString r).k = s.k := by
  rw [runString_of_not_ended (drawChars_of_unterminated h _ r)]
  exact ⟨rfl, rfl⟩

/-- A string in progress stays in progress over any number of steps where `TEXT` holds no terminator. -/
theorem run_of_unterminated {t : State} (hbusy : t.busy = true) (h : t.mem.Unterminated) (n : Nat) :
    ∃ u : State, Host.Core.run Sys2Proof.core n t = .next u ∧ u.busy = true ∧ u.k = t.k := by
  induction n generalizing t with
  | zero => exact ⟨t, rfl, hbusy, rfl⟩
  | succ n ih =>
    obtain ⟨hbusy', hk⟩ := runString_of_unterminated h t.scratch
    have hmem : (t.runString t.scratch).mem.Unterminated := (Keeps.runString t t.scratch).mem.symm ▸ h
    obtain ⟨u, hrun, hu, huk⟩ := ih hbusy' hmem
    exact ⟨u, (run_succ_of_step (M := Sys2Proof.core) n (step_of_busy hbusy)).trans hrun, hu, huk.trans hk⟩

end Sys2Proof.Machine

/-! SUPPORT. How many events, bytes and reads a string has (43_text_renderer.md R99). -/

namespace Sys2Proof.Machine

/-! ### Events and bytes of a filled window -/

/-- A stream carries two bytes a colour (R71). -/
theorem length_flatMap_pairNumbers (colors : List Nat) : (colors.flatMap pairNumbers).length = 2 * colors.length := by
  simp [List.length_flatMap, pairNumbers, Nat.mul_comm]

theorem length_dataBurst (bytes : List Nat) : (dataBurst bytes).length = bytes.length + 2 := by
  simp [dataBurst, txs]

/-- A window burst has fourteen events, and its data burst two and two bytes a colour (R67, R68, R70). -/
theorem length_windowFilled (x y w h : Nat) (colors : List Nat) :
    (windowFilled x y w h colors).length = 16 + 2 * colors.length := by
  have hwindow : (windowBurst x y w h).length = 14 := rfl
  rw [windowFilled, List.length_append, hwindow, length_dataBurst, length_flatMap_pairNumbers]
  omega

theorem txCount_append (es fs : List Event) : txCount (es ++ fs) = txCount es + txCount fs := by
  simp [txCount]

theorem txCount_flatMap {α : Type} (l : List α) (f : α → List Event) :
    txCount (l.flatMap f) = (l.map (fun a => txCount (f a))).sum := by
  induction l with
  | nil => rfl
  | cons a rest ih => rw [List.flatMap_cons, txCount_append, ih, List.map_cons, List.sum_cons]

theorem txCount_txs (bytes : List Nat) : txCount (txs bytes) = bytes.length := by
  induction bytes with
  | nil => rfl
  | cons b rest ih => exact congrArg (· + 1) ih

theorem txCount_commandBurst (bytes : List Nat) : txCount (commandBurst bytes) = bytes.length := by
  rw [commandBurst, txCount_append, txCount_append, txCount_txs]
  exact Nat.zero_add _

theorem txCount_dataBurst (bytes : List Nat) : txCount (dataBurst bytes) = bytes.length := by
  rw [dataBurst, txCount_append, txCount_append, txCount_txs]
  exact Nat.zero_add _

/-- A window command sends ten bytes, and its data session two a colour (R129). -/
theorem txCount_windowFilled (x y w h : Nat) (colors : List Nat) :
    txCount (windowFilled x y w h colors) = 10 + 2 * colors.length := by
  rw [windowFilled, txCount_append, windowBurst, txCount_commandBurst, txCount_dataBurst, length_flatMap_pairNumbers]
  rfl

/-! ### Columns of a string -/

/-- A column has eight pixels, a glyph's as well as a spacing column (R95, R96). -/
theorem length_columnPixels (fg bg : Color) (column : Option Byte) : (columnPixels fg bg column).length = 8 := by
  cases column <;> simp [columnPixels]

/-- A string has its glyphs' columns and one spacing column for each character (R99). -/
theorem length_stringColumns (m : Memory) (cs : List Byte) :
    (stringColumns m cs).length = (cs.map (glyphWidth m)).sum + cs.length := by
  induction cs with
  | nil => rfl
  | cons c cs ih =>
    rw [stringColumns, List.flatMap_cons, ← stringColumns, List.length_append, length_charColumns, ih, List.map_cons,
      List.sum_cons, List.length_cons]
    omega

theorem length_columnsEvents (x y : Byte) (fg bg : Color) (cols : List (Option Byte)) :
    (columnsEvents x y fg bg cols).length = 32 * cols.length := by
  simp [columnsEvents, List.length_flatMap, length_windowFilled, length_columnPixels, Nat.mul_comm]

theorem txCount_columnsEvents (x y : Byte) (fg bg : Color) (cols : List (Option Byte)) :
    txCount (columnsEvents x y fg bg cols) = 26 * cols.length := by
  simp [columnsEvents, txCount_flatMap, txCount_windowFilled, length_columnPixels, Nat.mul_comm]

/-! ### Reads of a string -/

/-- Each code is read once, and the terminator (R97). -/
theorem length_textReads (m : Memory) (a : Addr) (cs : List Byte) :
    ((stringReads m a cs).filter (fun p => p.1 = .text)).length = cs.length + 1 := by
  induction cs generalizing a with
  | nil => rfl
  | cons c cs ih => simp [stringReads, List.filter_map, Function.comp_def, ih]

/-- Each character's width is read once, and each bitmask of its glyph (R93, R95). -/
theorem length_fontReads (m : Memory) (a : Addr) (cs : List Byte) :
    ((stringReads m a cs).filter (fun p => p.1 = .font)).length = cs.length + (cs.map (glyphWidth m)).sum := by
  induction cs generalizing a with
  | nil => rfl
  | cons c cs ih =>
    have hcount : ((stringReads m a (c :: cs)).filter (fun p => p.1 = .font)).length =
        1 + (glyphWidth m c + ((stringReads m (a + 1) cs).filter (fun p => p.1 = .font)).length) := by
      simp [stringReads, List.filter_map, Function.comp_def, Nat.add_comm]
    rw [hcount, ih, List.length_cons, List.map_cons, List.sum_cons]
    omega

end Sys2Proof.Machine

/-! SUPPORT. What the columns of a string do to the reference sink (20_memory.md R41, 43_text_renderer.md R95). -/

namespace Sys2Proof.Machine

/-- Windows of the screen, each filled by one data session, are all written, in order (R41). -/
theorem receive_windowsFilled {α : Type} (k : Sink) (l : List α) (win : α → Window) (colors : α → List Color)
    (h : ∀ a ∈ l, (win a).ok = true ∧ (colors a).length ≤ (win a).width * (win a).height) :
    (k.receive (l.map win) (sessions (l.flatMap (fun a =>
      windowFilled (win a).x (win a).y (win a).width (win a).height ((colors a).map (·.toNat)))))).map (·.writes) =
      some (k.writes ++ l.flatMap (fun a => fillWindow (win a) 0 ((colors a).map color12))) := by
  induction l generalizing k with
  | nil => simp [sessions, sessionsFrom, Sink.receive]
  | cons a rest ih =>
    obtain ⟨⟨hok, hroom⟩, hrest⟩ := List.forall_mem_cons.mp h
    rw [List.flatMap_cons, ← emitWindow_stream, (Bursts.filled ..).sessions_append_eq, List.map_cons,
      receive_fill k (win a) _ _ _ hok hroom, ih _ hrest, List.flatMap_cons, List.append_assoc]

/-- A window one pixel wide is written from top to bottom (R41). -/
theorem fillWindow_column (x y h k : Nat) (cs : List (BitVec 12)) :
    fillWindow ⟨x, y, 1, h⟩ k cs = (cs.zipIdx k).map (fun q => ⟨x, y + q.2, q.1⟩) := by
  induction cs generalizing k with
  | nil => rfl
  | cons c cs ih => rw [fillWindow, ih, List.zipIdx_cons, List.map_cons, Nat.mod_one, Nat.div_one, Nat.add_zero]

/-- The window of column `i` of a string at `(x, y)` (R95). -/
def columnWindow (x y : Byte) (i : Nat) : Window := ⟨(x.toNat + i) % 256, y.toNat, 1, Config.glyphRows⟩

/-- A string passes to `EmitWindow` the windows of its columns, from the left. -/
theorem windowsOf_drawstring {m : Memory} {ptr : Addr} {cs : List Byte} (hstr : textString m ptr = some cs) (x y : Byte)
    (fg bg : Color) :
    windowsOf m (.drawstring x y fg bg ptr) =
      (stringColumns m cs).zipIdx.map (fun p => columnWindow x y p.2) := by
  have hindex : List.range (stringColumns m cs).length = (stringColumns m cs).zipIdx.map Prod.snd := by
    rw [List.zipIdx_map_snd, List.range_eq_range']
  rw [windowsOf, hstr]
  exact (congrArg (List.map (columnWindow x y)) hindex).trans List.map_map

/-- The duty R122 d: a string has room on the screen for every column. -/
theorem columns_fit_of_stringOk {m : Memory} {x : Byte} {cs : List Byte} (h : stringOk m x cs = true) :
    x.toNat + (stringColumns m cs).length ≤ 101 := by
  rw [stringOk, Bool.and_eq_true, decide_eq_true_eq] at h
  exact h.2

/-- A column on the screen has a window of the screen, and `X` has not wrapped. -/
theorem columnWindow_on_screen {x y : Byte} {i : Nat} (hx : x.toNat + i < 101) (hy : y.toNat + 8 ≤ 80) :
    columnWindow x y i = ⟨x.toNat + i, y.toNat, 1, 8⟩ ∧ (columnWindow x y i).ok = true := by
  have hwindow : columnWindow x y i = ⟨x.toNat + i, y.toNat, 1, 8⟩ := by
    rw [columnWindow, Nat.mod_eq_of_lt (by omega)]
    rfl
  refine ⟨hwindow, ?_⟩
  rw [hwindow]
  exact (windowOk_iff ..).mpr ⟨le_rfl, Nat.le_add_left 1 7, hx, hy⟩

/-- The writes of a column on the screen are its eight pixels, from the top (R95). -/
theorem fillWindow_columnWindow {x y : Byte} {i : Nat} (hx : x.toNat + i < 101) (hy : y.toNat + 8 ≤ 80)
    (pixels : List Color) :
    fillWindow (columnWindow x y i) 0 (pixels.map color12) =
      pixels.zipIdx.map (fun q => ⟨x.toNat + i, y.toNat + q.2, color12 q.1⟩) := by
  rw [(columnWindow_on_screen hx hy).1, fillWindow_column, List.zipIdx_map, List.map_map]
  rfl

/-- The view of the columns of a string on the screen (R99, R41). -/
theorem pixelView_columnsEvents {m : Memory} {ptr : Addr} {cs : List Byte} (hstr : textString m ptr = some cs) {x y : Byte}
    (fg bg : Color) (hx : x.toNat + (stringColumns m cs).length ≤ 101) (hy : y.toNat + 8 ≤ 80) :
    pixelView m (.drawstring x y fg bg ptr) (columnsEvents x y fg bg (stringColumns m cs)) =
      some ((stringColumns m cs).zipIdx.flatMap (fun p =>
        (columnPixels fg bg p.1).zipIdx.map (fun q => ⟨x.toNat + p.2, y.toNat + q.2, color12 q.1⟩))) := by
  have hcolumn : ∀ p ∈ (stringColumns m cs).zipIdx, x.toNat + p.2 < 101 := by
    intro p hp
    have hlt := List.snd_lt_of_mem_zipIdx hp
    omega
  have hroom : ∀ p ∈ (stringColumns m cs).zipIdx, (columnWindow x y p.2).ok = true ∧
      (columnPixels fg bg p.1).length ≤ (columnWindow x y p.2).width * (columnWindow x y p.2).height := fun p hp =>
    ⟨(columnWindow_on_screen (hcolumn p hp) hy).2, (length_columnPixels fg bg p.1).le⟩
  have hview := receive_windowsFilled Sink.start _ _ _ hroom
  rw [pixelView, windowsOf_drawstring hstr]
  refine hview.trans (congrArg some ?_)
  exact List.flatMap_congr fun p hp => fillWindow_columnWindow (hcolumn p hp) hy _

end Sys2Proof.Machine

/-! The statements about strings in progress, their counts and their pictures (43_text_renderer.md R97, R99). -/

namespace Sys2Proof.Machine

/-- Settles O47: no round of `TEXT` meets a terminator, from any scratch registers. -/
theorem unterminatedStringNeverEnds : Obligations.UnterminatedStringNeverEnds := by
  unfold Obligations.UnterminatedStringNeverEnds
  intro s x y color background ptr htext
  obtain ⟨hbusy, hk⟩ := runString_of_unterminated (s := s) htext
    { s.scratch with x := x, y := y, fg := color, bg := background, ptr := ptr }
  refine ⟨_, exec_drawstring .., fun n => ?_⟩
  obtain ⟨u, hrun, hu, huk⟩ := run_of_unterminated hbusy ((Keeps.runString s _).mem.symm ▸ htext) n
  exact ⟨u, hrun, hu, huk.trans hk⟩

/-- Settles O49: the events and reads of O46, counted. -/
theorem drawstringCounts : Obligations.DrawstringCounts := by
  unfold Obligations.DrawstringCounts
  intro s x y color background ptr cs hidle hstr
  obtain ⟨t, hexec, hdone, -⟩ := drawstringCompletes s x y color background ptr cs hidle hstr
  rw [← length_stringColumns]
  exact ⟨t, _, _, hexec, hdone, length_columnsEvents .., txCount_columnsEvents .., length_textReads ..,
    length_fontReads ..⟩

/-- Settles O54: the columns of O46 are windows of the screen, and the sink writes each. -/
theorem drawstringPicture : Obligations.DrawstringPicture := by
  unfold Obligations.DrawstringPicture
  intro s x y color background ptr cs hidle hstr hok hy
  obtain ⟨t, hexec, hdone, -⟩ := drawstringCompletes s x y color background ptr cs hidle hstr
  exact ⟨t, _, hexec, hdone.trace, pixelView_columnsEvents hstr color background (columns_fit_of_stringOk hok) hy⟩

end Sys2Proof.Machine

/-! SUPPORT. The events of the fill family as the numbers the rules write out (44_fill_and_blit.md R100 to R102). -/

namespace Sys2Proof.Machine

/-- A rectangle is four fills: top row, bottom row, left column, right column, the far ones modulo 256 (R102). -/
theorem rectEvents_eq_fills (x y width height : Byte) (color : Color) :
    rectEvents x y width height color =
      fill x.toNat y.toNat width.toNat 1 color ++
      fill x.toNat ((y.toNat + height.toNat + 255) % 256 : Nat) width.toNat 1 color ++
      fill x.toNat y.toNat 1 height.toNat color ++
      fill ((x.toNat + width.toNat + 255) % 256 : Nat) y.toNat 1 height.toNat color := by
  rw [← lastRow_toNat, ← lastRow_toNat]
  rfl

/-- The four fills as the rules write them out (R102, R72). -/
theorem rectEvents_eq_windowsFilled (x y width height : Byte) (color : Color) :
    rectEvents x y width height color =
      windowFilled x.toNat y.toNat width.toNat 1 (List.replicate width.toNat color.toNat) ++
      windowFilled x.toNat ((y.toNat + height.toNat + 255) % 256) width.toNat 1 (List.replicate width.toNat color.toNat) ++
      windowFilled x.toNat y.toNat 1 height.toNat (List.replicate height.toNat color.toNat) ++
      windowFilled ((x.toNat + width.toNat + 255) % 256) y.toNat 1 height.toNat
        (List.replicate height.toNat color.toNat) := by
  simp only [rectEvents_eq_fills, fill_eq_windowFilled, Nat.mul_one, Nat.one_mul]

/-- A rectangle leaves the lines idle from wherever they stand. -/
theorem drawrect_completed (s : State) (x y width height : Byte) (color : Color) :
    ∃ t, exec (.drawrect x y width height color) s = .next t ∧
      Completed s t (rectEvents x y width height color) [] :=
  completed_of_bus (exec_drawrect ..) (by simp [rectEvents]) (by simp [rectEvents])

/-- The window of the whole screen, filled, as R101 writes its bytes. -/
theorem windowFilled_screen (colors : List Nat) :
    windowFilled 0 0 101 80 colors =
      commandBurst [0xF0, 0x06, 0x10, 0x20, 0x30, 0xF5, 0x0F, 0x1C, 0x2F, 0x34] ++
        dataBurst (colors.flatMap pairNumbers) := rfl

end Sys2Proof.Machine

/-! SUPPORT. A blit performs the actions R105 lists, from either source: the laws are those of a source's space, so that both
bitmap commands follow from one (44_fill_and_blit.md R103 to R105). -/

namespace Sys2Proof.Machine

/-- The memory that a pixel source is (R30). -/
def PixSource.cells (m : Memory) : PixSource → Cells 16
  | .pixbuf => m.pixbuf
  | .pixtab => m.pixtab

theorem pixRead_eq_readCell (m : Memory) (src : PixSource) (a : Addr) :
    m.pixRead src a = readCell (src.cells m) a.toNat := by
  cases src <;> rfl

/-- Addresses of a pixel source wrap modulo 65536 (R30). -/
theorem toNat_addr_add (a : Addr) (i : Nat) : (a + BitVec.ofNat 16 i).toNat = (a.toNat + i) % 65536 := by
  simp

theorem tx_pair (c : Color) : (pair c).map .tx = txs (pairNumbers c.toNat) := by
  rw [← pair_map_toNat, txs_map_toNat]

/-- The words of a blit: each is read at its address, then sent as its pair (R105). -/
theorem blitWords_eq_flatMap (m : Memory) (src : PixSource) (n : Nat) (a : Addr) :
    blitWords m src n a = (List.range n).flatMap (fun i =>
      .read src.space ((a.toNat + i) % 65536) ::
        bus (txs (pairNumbers (readCell (src.cells m) ((a.toNat + i) % 65536)).toNat))) := by
  simp only [← toNat_addr_add, ← pixRead_eq_readCell, ← tx_pair]
  induction n generalizing a with
  | zero => rfl
  | succ n ih => simp [-BitVec.toNat_add, blitWords, ih, List.range_succ_eq_map, List.flatMap_map, addr_shift]

theorem blit_eq_blitActions (m : Memory) (src : PixSource) (x y width height : Byte) (ptr : Addr) :
    blit m src x y width height ptr =
      blitActions src.space (src.cells m) x.toNat y.toNat width.toNat height.toNat ptr.toNat := by
  have hwindow := emitWindow_eq_windowBurst x.toNat y.toNat width.toNat height.toNat
  rw [blit, coord, coord, hwindow, blitWords_eq_flatMap, blitActions, bus_append]
  simp [bus]

/-- The events of a blit: its window, filled with the words from `ptr` on (R105). -/
theorem eventsOf_blit_eq_windowFilled (m : Memory) (src : PixSource) (x y width height : Byte) (ptr : Addr) :
    eventsOf (blit m src x y width height ptr) =
      windowFilled x.toNat y.toNat width.toNat height.toNat ((List.range (width.toNat * height.toNat)).map
        (fun i => (readCell (src.cells m) ((ptr.toNat + i) % 65536)).toNat)) := by
  simp only [← toNat_addr_add, ← pixRead_eq_readCell]
  rw [eventsOf_blit, coord, coord, emitWindow_stream, List.map_map]
  rfl

/-- A command that is a blit completes with R105's events and reads, in R105's order. -/
theorem completed_of_blit {i : Instr} {s : State} {src : PixSource} {x y width height : Byte} {ptr : Addr}
    (hi : exec i s = .next (s.complete (blit s.mem src x y width height ptr))) :
    ∃ t, exec i s = .next t ∧
      Completed s t
        (windowFilled x.toNat y.toNat width.toNat height.toNat ((List.range (width.toNat * height.toNat)).map
          (fun i => (readCell (src.cells s.mem) ((ptr.toNat + i) % 65536)).toNat)))
        ((List.range (width.toNat * height.toNat)).map (fun i => (src.space, (ptr.toNat + i) % 65536))) ∧
      t.log = s.log ++ blitActions src.space (src.cells s.mem) x.toNat y.toNat width.toNat height.toNat ptr.toNat := by
  have hdone := complete_completed s (blit s.mem src x y width height ptr) (by simp [eventsOf_blit])
    (by simp [eventsOf_blit])
  simp only [eventsOf_blit_eq_windowFilled, readsOf_blit, toNat_addr_add] at hdone
  exact ⟨_, hi, hdone, by rw [complete_log, blit_eq_blitActions]⟩

/-- Sources that hold the same words at the addresses a blit reads give it the same events (R105). -/
theorem eventsOf_blit_congr {m : Memory} {src src' : PixSource} (x y : Byte) {width height : Byte} {ptr : Addr}
    (h : ∀ i < width.toNat * height.toNat,
      m.pixRead src (ptr + BitVec.ofNat 16 i) = m.pixRead src' (ptr + BitVec.ofNat 16 i)) :
    eventsOf (blit m src x y width height ptr) = eventsOf (blit m src' x y width height ptr) := by
  have hwords := List.map_congr_left fun i hi => h i (List.mem_range.mp hi)
  rw [eventsOf_blit, eventsOf_blit, hwords]

end Sys2Proof.Machine

/-! The statements about what fills and blits complete with (44_fill_and_blit.md). -/

namespace Sys2Proof.Machine

/-- Settles O39: the command is one filled window. -/
theorem fillrectCompletes : Obligations.FillrectCompletes := by
  unfold Obligations.FillrectCompletes
  intro s x y width height color
  rw [← fill_eq_windowFilled]
  exact completed_of_bus (exec_fillrect ..) (ceAfter_fill ..) (rsAfter_fill ..)

/-- Settles O40: the command is the filled window of the screen. -/
theorem clearCompletes : Obligations.ClearCompletes := by
  unfold Obligations.ClearCompletes
  intro s color
  have hevents : fill 0 0 101 80 color = windowFilled 0 0 101 80 (List.replicate 8080 color.toNat) :=
    fill_eq_windowFilled 0 0 101 80 color
  obtain ⟨t, hexec, hdone⟩ := completed_of_bus (exec_clear s color) (ceAfter_fill ..) (rsAfter_fill ..)
  refine ⟨t, _, hexec, hevents ▸ hdone, windowFilled_screen _, ?_, ?_⟩
  · rw [length_windowFilled, List.length_replicate]
  · rw [txCount_windowFilled, List.length_replicate]

/-- Settles O41: the four passes as filled windows. -/
theorem drawrectCompletes : Obligations.DrawrectCompletes := by
  unfold Obligations.DrawrectCompletes
  intro s x y width height color
  rw [← rectEvents_eq_windowsFilled]
  exact drawrect_completed ..

/-- Settles O42: the command is a blit from `PIXBUF`. -/
theorem drawbitmapbCompletes : Obligations.DrawbitmapbCompletes := by
  unfold Obligations.DrawbitmapbCompletes
  intro s x y width height ptr
  exact completed_of_blit (src := .pixbuf) (exec_drawbitmapb ..)

/-- Settles O43: the command is a blit from `PIXTAB`. -/
theorem drawbitmaptCompletes : Obligations.DrawbitmaptCompletes := by
  unfold Obligations.DrawbitmaptCompletes
  intro s x y width height ptr
  exact completed_of_blit (src := .pixtab) (exec_drawbitmapt ..)

/-- Settles O44: the events of a blit depend on the words it reads alone. -/
theorem bitmapSourcesAgree : Obligations.BitmapSourcesAgree := by
  unfold Obligations.BitmapSourcesAgree
  intro s x y width height ptr hwords
  refine ⟨_, _, exec_drawbitmapb .., exec_drawbitmapt .., ?_⟩
  rw [trace_complete, trace_complete, eventsOf_blit_congr x y hwords]

end Sys2Proof.Machine

/-! SUPPORT. What fills and blits do to the reference sink (20_memory.md R41, R42 a). -/

namespace Sys2Proof.Machine

/-! ### One window -/

/-- A pixel of the screen is a window of the screen, one by one (R121). -/
theorem windowOk_one_by_one (x y : Nat) : windowOk x y 1 1 = pixelOk x y := by
  rw [Bool.eq_iff_iff, windowOk_iff, pixelOk_iff]
  omega

/-- A rectangle that breaks the window invariant leaves the sink with no answer (R41, U1). -/
theorem receive_broken_window (k : Sink) {r : Window} (hbroken : r.ok = false) (more : List Window) (x y : Int) (w h : Nat)
    (cs : List Color) : k.receive (r :: more) (sessions (emitWindow x y w h ++ stream cs)) = none := by
  obtain ⟨bytes, hwindow, hsessions⟩ := sessions_emitWindow_stream x y w h cs []
  rw [List.append_nil] at hsessions
  simp [hsessions, Sink.receive, hwindow, hbroken]

/-- The view of a command that fills one window with one colour: the window's pixels in row-major order, if it is one of the
screen (R72, R41). -/
theorem pixelView_fill_eq_ite {m : Memory} {i : Instr} {x y w h : Nat} (hwindows : windowsOf m i = [⟨x, y, w, h⟩])
    (color : Color) :
    pixelView m i (fill x y w h color) =
      if windowOk x y w h = true then
        some ((List.range (w * h)).map (fun j => ⟨x + j % w, y + j / w, color12 color⟩))
      else none := by
  split
  case isTrue hok => exact pixelView_fill hwindows hok color
  case isFalse hbroken =>
    have hreceive := receive_broken_window Sink.start (r := ⟨x, y, w, h⟩) (Bool.eq_false_iff.mpr hbroken) []
    rw [pixelView, hwindows, fill, hreceive]
    rfl

/-- The colour of pair `i` is written to the window's pixel `i` in row-major order (R41). -/
theorem fillWindow_map_range' (win : Window) (color : Nat → BitVec 12) (k n : Nat) :
    fillWindow win k ((List.range' k n).map color) =
      (List.range' k n).map (fun i => ⟨win.x + i % win.width, win.y + i / win.width, color i⟩) := by
  induction n generalizing k with
  | zero => rfl
  | succ n ih => rw [List.range'_succ, List.map_cons, fillWindow, ih, List.map_cons]

/-- The view of a blit to a window of the screen (R105, R41). -/
theorem pixelView_blit {m : Memory} {i : Instr} {x y width height : Byte}
    (hwindows : windowsOf m i = [⟨x.toNat, y.toNat, width.toNat, height.toNat⟩])
    (hok : windowOk x.toNat y.toNat width.toNat height.toNat = true) (src : PixSource) (ptr : Addr) :
    pixelView m i (eventsOf (blit m src x y width height ptr)) =
      some ((List.range (width.toNat * height.toNat)).map (fun j =>
        ⟨x.toNat + j % width.toNat, y.toNat + j / width.toNat, color12 (m.pixRead src (ptr + BitVec.ofNat 16 j))⟩)) := by
  have hreceive := receive_fill Sink.start ⟨x.toNat, y.toNat, width.toNat, height.toNat⟩ []
    ((List.range (width.toNat * height.toNat)).map (fun j => m.pixRead src (ptr + BitVec.ofNat 16 j))) [] hok (by simp)
  rw [List.append_nil, List.map_map, List.range_eq_range', fillWindow_map_range'] at hreceive
  rw [pixelView, hwindows, eventsOf_blit, List.range_eq_range']
  exact congrArg (Option.map (·.writes)) hreceive

/-! ### The words of a bitmap under the host's duties -/

theorem color12_toNat (c : Color) : (color12 c).toNat = c.toNat % 4096 := by
  simp [color12]

/-- A legal colour is written whole (R126). -/
theorem color12_toNat_of_colorOk {c : Color} (h : colorOk c = true) : (color12 c).toNat = c.toNat := by
  rw [color12_toNat, Nat.mod_eq_of_lt (of_decide_eq_true h)]

/-- The legal words of a bitmap are written whole (R126, R30). -/
theorem color12_toNat_of_pixelsOk {m : Memory} {src : PixSource} {ptr : Addr} {n i : Nat}
    (h : pixelsOk m src ptr n = true) (hi : i < n) :
    (color12 (m.pixRead src (ptr + BitVec.ofNat 16 i))).toNat = (m.pixRead src (ptr + BitVec.ofNat 16 i)).toNat :=
  color12_toNat_of_colorOk (List.all_eq_true.mp h i (List.mem_range.mpr hi))

/-! ### Rows and columns of one colour -/

/-- The writes of a row of `n` pixels from `(x, y)` on. -/
def rowWrites (x y n : Nat) (c : BitVec 12) : List PixelWrite := (List.range n).map (fun i => ⟨x + i, y, c⟩)

/-- The writes of a column of `n` pixels from `(x, y)` on. -/
def columnWrites (x y n : Nat) (c : BitVec 12) : List PixelWrite := (List.range n).map (fun i => ⟨x, y + i, c⟩)

/-- What a window one pixel high filled with one colour does to the sink. -/
theorem receive_row (k : Sink) {x y n : Nat} (hok : windowOk x y n 1 = true) (more : List Window) (color : Color)
    (rest : List Session) :
    k.receive (⟨x, y, n, 1⟩ :: more) (sessions (fill x y n 1 color) ++ rest) =
      Sink.receive more ⟨some ⟨x, y, n, 1⟩, false, k.writes ++ rowWrites x y n (color12 color)⟩ rest := by
  have hwrites : (List.range (n * 1)).map (fun i => (⟨x + i % n, y + i / n, color12 color⟩ : PixelWrite)) =
      rowWrites x y n (color12 color) := by
    rw [Nat.mul_one, rowWrites]
    refine List.map_congr_left fun i hi => ?_
    rw [Nat.mod_eq_of_lt (List.mem_range.mp hi), Nat.div_eq_of_lt (List.mem_range.mp hi), Nat.add_zero]
  rw [← hwrites]
  exact receive_fill_color k (r := ⟨x, y, n, 1⟩) hok more color rest

/-- What a window one pixel wide filled with one colour does to the sink. -/
theorem receive_column (k : Sink) {x y n : Nat} (hok : windowOk x y 1 n = true) (more : List Window) (color : Color)
    (rest : List Session) :
    k.receive (⟨x, y, 1, n⟩ :: more) (sessions (fill x y 1 n color) ++ rest) =
      Sink.receive more ⟨some ⟨x, y, 1, n⟩, false, k.writes ++ columnWrites x y n (color12 color)⟩ rest := by
  have hwrites : (List.range (1 * n)).map (fun i => (⟨x + i % 1, y + i / 1, color12 color⟩ : PixelWrite)) =
      columnWrites x y n (color12 color) := by
    simp [columnWrites, Nat.mod_one]
  rw [← hwrites]
  exact receive_fill_color k (r := ⟨x, y, 1, n⟩) hok more color rest

/-- Writes of one colour leave it at the pixels they write, and nothing at any other (R41). -/
theorem colorAt_of_color {ws : List PixelWrite} {c : BitVec 12} (h : ∀ p ∈ ws, p.color = c) (px py : Nat) :
    colorAt px py ws = if ∃ p ∈ ws, p.x = px ∧ p.y = py then some c else none := by
  induction ws with
  | nil => simp [colorAt]
  | cons p rest ih =>
    obtain ⟨hp, hrest⟩ := List.forall_mem_cons.mp h
    have hfirst : colorAt px py [p] = if p.x = px ∧ p.y = py then some c else none := by rw [← hp]; rfl
    rw [← List.singleton_append, colorAt_append, ih hrest, hfirst]
    simp only [List.singleton_append, List.exists_mem_cons_iff]
    by_cases hlater : ∃ q ∈ rest, q.x = px ∧ q.y = py
    · rw [if_pos hlater, if_pos (Or.inr hlater), Option.some_or]
    · rw [if_neg hlater, Option.none_or]
      exact if_congr (or_iff_left hlater).symm rfl rfl

theorem rowWrites_at_iff (x y n : Nat) (c : BitVec 12) (px py : Nat) :
    (∃ p ∈ rowWrites x y n c, p.x = px ∧ p.y = py) ↔ x ≤ px ∧ px < x + n ∧ py = y := by
  simp only [rowWrites, List.mem_map, List.mem_range]
  constructor
  · rintro ⟨_, ⟨i, hi, rfl⟩, rfl, rfl⟩
    exact ⟨Nat.le_add_right x i, Nat.add_lt_add_left hi x, rfl⟩
  · rintro ⟨hle, hlt, rfl⟩
    exact ⟨_, ⟨px - x, by omega, rfl⟩, Nat.add_sub_of_le hle, rfl⟩

theorem columnWrites_at_iff (x y n : Nat) (c : BitVec 12) (px py : Nat) :
    (∃ p ∈ columnWrites x y n c, p.x = px ∧ p.y = py) ↔ y ≤ py ∧ py < y + n ∧ px = x := by
  simp only [columnWrites, List.mem_map, List.mem_range]
  constructor
  · rintro ⟨_, ⟨i, hi, rfl⟩, rfl, rfl⟩
    exact ⟨Nat.le_add_right y i, Nat.add_lt_add_left hi y, rfl⟩
  · rintro ⟨hle, hlt, rfl⟩
    exact ⟨_, ⟨py - y, by omega, rfl⟩, rfl, Nat.add_sub_of_le hle⟩

/-! ### The border of a rectangle -/

/-- The writes of DRAWRECT on the screen, pass by pass (R102). -/
def rectWrites (x y width height : Nat) (c : BitVec 12) : List PixelWrite :=
  rowWrites x y width c ++ rowWrites x (y + height - 1) width c ++ columnWrites x y height c ++
    columnWrites (x + width - 1) y height c

theorem color_of_mem_rectWrites {x y width height : Nat} {c : BitVec 12} {p : PixelWrite}
    (hp : p ∈ rectWrites x y width height c) : p.color = c := by
  simp only [rectWrites, rowWrites, columnWrites, List.mem_append, List.mem_map] at hp
  obtain ((⟨i, -, rfl⟩ | ⟨i, -, rfl⟩) | ⟨i, -, rfl⟩) | ⟨i, -, rfl⟩ := hp <;> rfl

/-- The border of a rectangle, and no other pixel, is left in its colour. -/
theorem colorAt_rectWrites (x y width height : Nat) (c : BitVec 12) (px py : Nat) :
    colorAt px py (rectWrites x y width height c) =
      if (x ≤ px ∧ px < x + width ∧ (py = y ∨ py = y + height - 1)) ∨
          (y ≤ py ∧ py < y + height ∧ (px = x ∨ px = x + width - 1)) then some c else none := by
  rw [colorAt_of_color (fun p hp => color_of_mem_rectWrites hp)]
  refine if_congr ?_ rfl rfl
  simp only [rectWrites, List.mem_append, or_and_right, exists_or, rowWrites_at_iff, columnWrites_at_iff]
  tauto

/-- A rectangle of the screen, in whose passes nothing wraps: the windows of DRAWRECT, and its events as four fills (R102,
R121). -/
theorem drawrect_on_screen (m : Memory) {x y width height : Byte} (color : Color)
    (hok : windowOk x.toNat y.toNat width.toNat height.toNat = true) :
    windowsOf m (.drawrect x y width height color) =
      [⟨x.toNat, y.toNat, width.toNat, 1⟩, ⟨x.toNat, y.toNat + height.toNat - 1, width.toNat, 1⟩,
       ⟨x.toNat, y.toNat, 1, height.toNat⟩, ⟨x.toNat + width.toNat - 1, y.toNat, 1, height.toNat⟩] ∧
    rectEvents x y width height color =
      fill x.toNat y.toNat width.toNat 1 color ++
      fill x.toNat (y.toNat + height.toNat - 1 : Nat) width.toNat 1 color ++
      fill x.toNat y.toNat 1 height.toNat color ++
      fill (x.toNat + width.toNat - 1 : Nat) y.toNat 1 height.toNat color := by
  rw [windowOk_iff] at hok
  have hbottom : (y.toNat + height.toNat + 255) % 256 = y.toNat + height.toNat - 1 := by omega
  have hright : (x.toNat + width.toNat + 255) % 256 = x.toNat + width.toNat - 1 := by omega
  rw [windowsOf, lastRow_toNat, lastRow_toNat, rectEvents_eq_fills, hbottom, hright]
  exact ⟨rfl, rfl⟩

/-- What a rectangle of the screen does to any sink: its border is written, and the window is left at the right column (R102,
R42 a, R124). -/
theorem receive_drawrect (k : Sink) (m : Memory) {x y width height : Byte} (color : Color)
    (hok : windowOk x.toNat y.toNat width.toNat height.toNat = true) :
    k.receive (windowsOf m (.drawrect x y width height color)) (sessions (rectEvents x y width height color)) =
      some ⟨some ⟨x.toNat + width.toNat - 1, y.toNat, 1, height.toNat⟩, false,
        k.writes ++ rectWrites x.toNat y.toNat width.toNat height.toNat (color12 color)⟩ := by
  obtain ⟨hwindows, hevents⟩ := drawrect_on_screen m color hok
  rw [windowOk_iff] at hok
  have htop : windowOk x.toNat y.toNat width.toNat 1 = true := by rw [windowOk_iff]; omega
  have hbottom : windowOk x.toNat (y.toNat + height.toNat - 1) width.toNat 1 = true := by rw [windowOk_iff]; omega
  have hleft : windowOk x.toNat y.toNat 1 height.toNat = true := by rw [windowOk_iff]; omega
  have hright : windowOk (x.toNat + width.toNat - 1) y.toNat 1 height.toNat = true := by rw [windowOk_iff]; omega
  rw [hwindows, hevents, List.append_assoc, List.append_assoc, (Bursts.fill ..).sessions_append_eq,
    (Bursts.fill ..).sessions_append_eq, (Bursts.fill ..).sessions_append_eq, receive_row _ htop, receive_row _ hbottom,
    receive_column _ hleft, ← List.append_nil (sessions _), receive_column _ hright]
  simp [Sink.receive, rectWrites]

end Sys2Proof.Machine

/-! The statements about the pictures of fills and blits (44_fill_and_blit.md, 20_memory.md R41). -/

namespace Sys2Proof.Machine

/-- Settles O50: the three commands fill one window each. -/
theorem fillrectPicture : Obligations.FillrectPicture := by
  unfold Obligations.FillrectPicture
  refine ⟨fun s x y width height color => ?_, fun s color => ?_, fun s x y color => ?_⟩
  · refine ⟨_, _, exec_fillrect .., trace_complete .., ?_⟩
    rw [eventsOf_bus]
    exact pixelView_fill_eq_ite rfl color
  · refine ⟨_, _, exec_clear .., trace_complete .., ?_⟩
    rw [eventsOf_bus]
    refine (pixelView_fill (r := ⟨0, 0, 101, 80⟩) rfl rfl color).trans ?_
    simp only [Nat.zero_add, Nat.reduceMul]
  · refine ⟨_, _, exec_drawpixel .., trace_complete .., ?_⟩
    rw [eventsOf_bus, ← windowOk_one_by_one]
    exact pixelView_fill_eq_ite rfl color

/-- Settles O52: the four passes are rows and columns of the screen, and the sink writes each, from wherever it stands. -/
theorem drawrectPicture : Obligations.DrawrectPicture := by
  unfold Obligations.DrawrectPicture
  intro s x y width height color hok
  obtain ⟨t, hexec, hdone⟩ := drawrect_completed s x y width height color
  refine ⟨t, _, _, hexec, hdone.trace, ?_, rfl, colorAt_rectWrites _ _ _ _ _, fun k => receive_drawrect k s.mem color hok⟩
  rw [pixelView, receive_drawrect _ s.mem color hok]
  rfl

/-- Settles O53: a blit fills its window with the words it reads, and a legal word is its own low twelve bits. -/
theorem bitmapPicture : Obligations.BitmapPicture := by
  unfold Obligations.BitmapPicture
  intro s x y width height ptr hok
  refine ⟨⟨_, _, exec_drawbitmapb .., trace_complete .., pixelView_blit rfl hok ..⟩,
    ⟨_, _, exec_drawbitmapt .., trace_complete .., pixelView_blit rfl hok ..⟩, fun h i hi => ?_, fun h i hi => ?_⟩
  · have hwords : pixelsOk s.mem .pixbuf ptr (width.toNat * height.toNat) = true := (Bool.and_eq_true_iff.mp h).2
    exact color12_toNat_of_pixelsOk hwords hi
  · have hwords : pixelsOk s.mem .pixtab ptr (width.toNat * height.toNat) = true := (Bool.and_eq_true_iff.mp h).2
    exact color12_toNat_of_pixelsOk hwords hi

end Sys2Proof.Machine

/-! The statement about exceptions (60_exceptions.md): there are none, so each operation answers a next state. -/

namespace Sys2Proof.Machine

/-- No operand value, memory or state stops a command (R106): every arm of `exec` completes it or runs a string. -/
theorem exec_answers (i : Instr) (s : State) : ∃ t, exec i s = .next t := by
  cases i with
  | setwindow x y width height => exact ⟨_, exec_setwindow ..⟩
  | setcontrast contrast => exact ⟨_, exec_setcontrast ..⟩
  | setlcdon on => exact ⟨_, exec_setlcdon ..⟩
  | inversescreen inverse => exact ⟨_, exec_inversescreen ..⟩
  | setstartline line => exact ⟨_, exec_setstartline ..⟩
  | setinverselines y height mode => exact ⟨_, exec_setinverselines ..⟩
  | drawpixel x y color => exact ⟨_, exec_drawpixel ..⟩
  | drawline x1 y1 x2 y2 color => exact ⟨_, exec_drawline ..⟩
  | fillrect x y width height color => exact ⟨_, exec_fillrect ..⟩
  | drawrect x y width height color => exact ⟨_, exec_drawrect ..⟩
  | clear color => exact ⟨_, exec_clear ..⟩
  | drawbitmapb x y width height ptr => exact ⟨_, exec_drawbitmapb ..⟩
  | drawbitmapt x y width height ptr => exact ⟨_, exec_drawbitmapt ..⟩
  | drawstring x y color background ptr => exact ⟨_, exec_drawstring ..⟩

/-- Every command word is taken: a legal one runs its command, and an illegal one completes with `ill` set (R107). -/
theorem takeWord_answers (w : CmdWord) (s : State) : ∃ t, takeWord w s = .next t := by
  cases hd : decode w with
  | ok i => rw [takeWord_of_ok s hd]; exact exec_answers i s
  | error e => exact ⟨s.takeIllegal, takeWord_of_error s hd⟩

/-- Settles O10, by the cases of a step: a string in progress goes on, an idle LGE waits, and a word presented is taken. -/
theorem stepAlwaysGoesOn : Obligations.StepAlwaysGoesOn := by
  unfold Obligations.StepAlwaysGoesOn
  intro s
  cases hb : s.busy with
  | true => exact ⟨s.runString s.scratch, step_of_busy hb⟩
  | false =>
    cases hw : s.prog[s.k]? with
    | none => exact ⟨s, step_of_noWord hb hw⟩
    | some w => rw [step_of_word hb hw]; exact takeWord_answers w s

end Sys2Proof.Machine

/-! SUPPORT. What a reset does to the lines and the trace, and which actions a step performs (70_reset_and_hazards.md R116,
R117). -/

namespace Sys2Proof.Machine

/-! ### The line writes of a reset -/

/-- From wherever the lines stand, the line writes of a reset take chip-enable and register-select to idle (R116). -/
theorem ceAfter_resetEvents (ce : Bool) (rs : RsMode) : ceAfter ce (resetEvents ce rs) = false := by
  cases ce <;> cases rs <;> rfl

theorem rsAfter_resetEvents (ce : Bool) (rs : RsMode) : rsAfter rs (resetEvents ce rs) = .data := by
  cases ce <;> cases rs <;> rfl

/-- `CE(0)` comes before `RS(D)`, so register-select changes only while chip-enable is deasserted (R40, R116). -/
theorem busLegal_resetEvents (ce : Bool) (rs : RsMode) : busLegal ce rs (resetEvents ce rs) = true := by
  cases ce <;> cases rs <;> rfl

theorem txCount_resetEvents (ce : Bool) (rs : RsMode) : txCount (resetEvents ce rs) = 0 := by
  cases ce <;> cases rs <;> rfl

theorem trace_assertReset (s : State) : s.assertReset.trace = s.trace ++ resetEvents s.ce s.rs := by
  rw [State.trace, assertReset_log, eventsOf_append, eventsOf_bus, State.trace]

theorem reads_assertReset (s : State) : s.assertReset.reads = s.reads := by
  rw [State.reads, assertReset_log, readsOf_append, readsOf_bus, List.append_nil, State.reads]

theorem assertReset_idle (s : State) : s.assertReset.Idle := by
  refine ⟨assertReset_busy s, ?_, ?_⟩
  · rw [assertReset_ce, eventsOf_bus, ceAfter_resetEvents]
  · rw [assertReset_rs, eventsOf_bus, rsAfter_resetEvents]

/-! ### The actions of a step -/

theorem log_prefix_runString (s : State) (r : Scratch) : s.log <+: (s.runString r).log := by
  obtain ⟨run, -, -, hrun⟩ | ⟨run, -, -, hrun⟩ := runString_cases s r
  · exact ⟨run.acts, by rw [hrun, complete_log]⟩
  · exact ⟨run.acts, by rw [hrun]; rfl⟩

/-- A step only adds to the log. -/
theorem log_prefix_of_step {s t : State} (h : step s = .next t) : s.log <+: t.log := by
  obtain ⟨-, rfl⟩ | ⟨-, -, rfl⟩ | ⟨-, w, e, -, -, rfl⟩ | ⟨-, w, i, -, -, ht⟩ := step_cases h
  · exact log_prefix_runString s s.scratch
  · exact List.prefix_rfl
  · exact ⟨[], rfl⟩
  · obtain ⟨acts, -, rfl⟩ | ⟨r, rfl⟩ := exec_cases ht
    · exact ⟨acts, (complete_log s acts).symm⟩
    · exact log_prefix_runString s r

theorem log_of_step {s t : State} (h : step s = .next t) : t.log = s.log ++ stepActions s := by
  obtain ⟨acts, hacts⟩ := log_prefix_of_step h
  simp only [stepActions, h, ← hacts, List.drop_left]

theorem trace_of_step {s t : State} (h : step s = .next t) : t.trace = s.trace ++ eventsOf (stepActions s) := by
  rw [State.trace, log_of_step h, eventsOf_append, State.trace]

theorem newEvents_of_step {s t : State} (h : step s = .next t) : newEvents s t = eventsOf (stepActions s) := by
  rw [newEvents, trace_of_step h, List.drop_left]

/-! ### A step cut short -/

theorem eventsOf_take_prefix (acts : List Action) (n : Nat) : eventsOf (acts.take n) <+: eventsOf acts :=
  ⟨eventsOf (acts.drop n), by rw [← eventsOf_append, List.take_append_drop]⟩

theorem trace_resetDuring (s : State) (n : Nat) :
    (s.resetDuring n).trace = s.trace ++ eventsOf ((stepActions s).take n) ++
      resetEvents (ceAfter s.ce (eventsOf ((stepActions s).take n)))
        (rsAfter s.rs (eventsOf ((stepActions s).take n))) := by
  rw [State.resetDuring, trace_assertReset, trace_perform, perform_ce, perform_rs]

theorem reads_resetDuring (s : State) (n : Nat) :
    (s.resetDuring n).reads = s.reads ++ readsOf ((stepActions s).take n) := by
  rw [State.resetDuring, reads_assertReset, reads_perform]

end Sys2Proof.Machine

/-! SUPPORT. Each move of the host keeps a state safe (70_reset_and_hazards.md R116, R117, R130). -/

namespace Sys2Proof.Machine

/-- A beginning of a legal trace is legal, so a trace may be cut anywhere. -/
theorem busLegal_of_prefix {ce : Bool} {rs : RsMode} {es fs : List Event} (hprefix : es <+: fs)
    (h : busLegal ce rs fs = true) : busLegal ce rs es = true := by
  obtain ⟨rest, rfl⟩ := hprefix
  rw [busLegal_append, Bool.and_eq_true] at h
  exact h.1

theorem Safe.presentWord {s : State} (h : Safe s) (w : CmdWord) : Safe (s.presentWord w) :=
  have hlonger : s.prog.length ≤ (s.presentWord w).prog.length := by simp
  ⟨h.ceIdle, h.rsIdle, h.legal, h.ceTrace, h.rsTrace, h.memory, h.index.trans hlonger,
    fun hb => (h.inProgress hb).trans_le hlonger⟩

/-- Of its memories a safe state asks the canonical form alone. -/
theorem Safe.withMem {s : State} (h : Safe s) {m : Memory} (hm : m.wf = true) : Safe { s with mem := m } :=
  ⟨h.ceIdle, h.rsIdle, h.legal, h.ceTrace, h.rsTrace, hm, h.index, h.inProgress⟩

/-- A reset leaves a safe state wherever the trace was legal and ended with the lines where they stand: neither idle lines
nor an index in the program are asked (R116). -/
theorem safe_assertReset {s : State} (hlegal : busLegal false .data s.trace = true)
    (hce : ceAfter false s.trace = s.ce) (hrs : rsAfter .data s.trace = s.rs) (hmem : s.mem.wf = true) :
    Safe s.assertReset := by
  obtain ⟨hbusy, hceIdle, hrsIdle⟩ := assertReset_idle s
  refine ⟨hceIdle, hrsIdle, ?_, ?_, ?_, hmem, Nat.zero_le _, fun hb => absurd hb (by simp)⟩
  · rw [trace_assertReset, busLegal_append, hlegal, hce, hrs, busLegal_resetEvents, Bool.and_self]
  · rw [trace_assertReset, ceAfter_append, hce, ceAfter_resetEvents, hceIdle]
  · rw [trace_assertReset, rsAfter_append, hrs, rsAfter_resetEvents, hrsIdle]

theorem Safe.assertReset {s : State} (h : Safe s) : Safe s.assertReset :=
  safe_assertReset h.legal h.ceTrace h.rsTrace h.memory

/-- The events before the cut begin the trace of the whole step, which is legal because the step keeps the state safe
(R117). -/
theorem Safe.resetDuring {s : State} (h : Safe s) (n : Nat) : Safe (s.resetDuring n) := by
  obtain ⟨t, hstep⟩ := stepAlwaysGoesOn s
  have hwhole : busLegal false .data (s.trace ++ eventsOf (stepActions s)) = true :=
    trace_of_step hstep ▸ (stepKeepsSafe s t h hstep).legal
  have hcut : s.trace ++ eventsOf ((stepActions s).take n) <+: s.trace ++ eventsOf (stepActions s) :=
    (List.prefix_append_right_inj _).mpr (eventsOf_take_prefix _ n)
  refine safe_assertReset ?_ ?_ ?_ h.memory
  · rw [trace_perform]
    exact busLegal_of_prefix hcut hwhole
  · rw [trace_perform, ceAfter_append, h.ceTrace, perform_ce]
  · rw [trace_perform, rsAfter_append, h.rsTrace, perform_rs]

end Sys2Proof.Machine

/-! SUPPORT. The bytes of an operation, as R129 counts them (70_reset_and_hazards.md). -/

namespace Sys2Proof.Machine

/-- From `s` to `t` the trace grows by events that send `n` bytes. -/
def SendsBytes (s t : State) (n : Nat) : Prop := ∃ es, t.trace = s.trace ++ es ∧ txCount es = n

/-- An operation that completes sends the bytes of the events it completes with. -/
theorem SendsBytes.of_completed {i : Instr} {s t : State} {es : List Event} {rds : List (Space × Nat)} {n : Nat}
    (h : ∃ u, exec i s = .next u ∧ Completed s u es rds) (hcount : txCount es = n) (ht : exec i s = .next t) :
    SendsBytes s t n := by
  obtain ⟨u, hu, hdone⟩ := h
  rw [ht, Host.Outcome.next.injEq] at hu
  subst hu
  exact ⟨es, hdone.trace, hcount⟩

theorem txCount_windowBurst (x y w h : Nat) : txCount (windowBurst x y w h) = 10 := by
  rw [windowBurst, txCount_commandBurst, windowNumbers]
  rfl

/-- A filled rectangle sends its window and a pair for each pixel (R72). -/
theorem txCount_fill (x y w h : Nat) (color : Color) : txCount (fill x y w h color) = 10 + 2 * w * h := by
  rw [fill_eq_windowFilled, txCount_windowFilled, List.length_replicate, Nat.mul_assoc]

/-- A pixel drawn by itself sends a window and one pair (R84). -/
theorem txCount_pointEvents (color : Color) (pts : List (Nat × Nat)) :
    txCount (pointEvents color pts) = 12 * pts.length := by
  simp [pointEvents, txCount_flatMap, txCount_windowFilled, Nat.mul_comm]

theorem txCount_rectEvents (x y width height : Byte) (color : Color) :
    txCount (rectEvents x y width height color) = 40 + 4 * (width.toNat + height.toNat) := by
  simp only [rectEvents_eq_fills, txCount_append, txCount_fill]
  omega

/-- A blit sends its window and a pair for each word (R105). -/
theorem txCount_blit (m : Memory) (src : PixSource) (x y width height : Byte) (ptr : Addr) :
    txCount (eventsOf (blit m src x y width height ptr)) = 10 + 2 * width.toNat * height.toNat := by
  rw [eventsOf_blit_eq_windowFilled, txCount_windowFilled, List.length_map, List.length_range, Nat.mul_assoc]

theorem SendsBytes.blit (s : State) (src : PixSource) (x y width height : Byte) (ptr : Addr) :
    SendsBytes s (s.complete (blit s.mem src x y width height ptr)) (10 + 2 * width.toNat * height.toNat) :=
  ⟨_, trace_complete .., txCount_blit ..⟩

/-- The three paths of a line: one window on the horizontal and the vertical one, and one for each pixel on the Bresenham
path (R87, R88, R90). -/
theorem byteCost_drawline (m : Memory) (x1 y1 x2 y2 : Byte) (color : Color) :
    byteCost m (.drawline x1 y1 x2 y2 color) = some (txCount (lineEvents x1 y1 x2 y2 color)) := by
  simp only [byteCost, natAbs_coord_sub]
  by_cases hy : y1 = y2
  · subst hy
    rw [if_pos rfl, lineEvents_horizontal, txCount_fill, Nat.mul_one]
  · by_cases hx : x1 = x2
    · subst hx
      rw [if_neg hy, if_pos rfl, lineEvents_vertical _ hy, txCount_fill, Nat.mul_one]
    · rw [if_neg hy, if_neg hx, lineEvents_eq_pointEvents hy hx, txCount_pointEvents, length_drawnPoints hy hx]

end Sys2Proof.Machine

/-! SUPPORT. The bus events and the waits of the host's bring-up (70_reset_and_hazards.md R118). -/

namespace Sys2Proof.Machine

theorem bootEvents_append (as bs : List BootAction) : bootEvents (as ++ bs) = bootEvents as ++ bootEvents bs := by
  induction as with
  | nil => rfl
  | cons a rest ih => cases a <;> simp [bootEvents, ih]

theorem bootEvents_map_bus (es : List Event) : bootEvents (es.map .bus) = es := by
  induction es with
  | nil => rfl
  | cons e rest ih => rw [List.map_cons, bootEvents, ih]

theorem bootMillis_append (as bs : List BootAction) : bootMillis (as ++ bs) = bootMillis as + bootMillis bs := by
  induction as with
  | nil => simp [bootMillis]
  | cons a rest ih => cases a <;> simp [bootMillis, ih, Nat.add_assoc]

theorem bootMillis_map_bus (es : List Event) : bootMillis (es.map .bus) = 0 := by
  induction es with
  | nil => rfl
  | cons e rest ih => rw [List.map_cons, bootMillis, ih]

/-- A table is sent byte by byte. -/
theorem bootEvents_table (bytes : List Byte) : bootEvents (bytes.map (fun b => .bus (.tx b))) = bytes.map .tx := by
  simpa [Function.comp_def] using bootEvents_map_bus (bytes.map .tx)

theorem bootMillis_table (bytes : List Byte) : bootMillis (bytes.map (fun b => .bus (.tx b))) = 0 := by
  simpa [Function.comp_def] using bootMillis_map_bus (bytes.map .tx)

/-- The contrast bytes of step 13 (R79). -/
def bootContrastBytes : List Byte :=
  [0xF4, tagged 0xB (hi (Config.defaultContrast.setWidth 8)), tagged 0xA (lo (Config.defaultContrast.setWidth 8))]

/-- The bus events of a bring-up from step 7 on (R118): register-select goes to command mode, the two tables are sent in a
session each, register-select goes back, and the contrast command is sent. -/
def bringUpSessions : List Event :=
  .rs .command :: (dataSession Config.bringupTable.toList ++ dataSession Config.configTable.toList ++
    .rs .data :: cmdSession bootContrastBytes)

/-- The bring-up starts by taking both lines to idle (R118). -/
theorem bootEvents_bringUp : bootEvents (bringUp ++ bringUpEnd) = .ce false :: .rs .data :: bringUpSessions := by
  simp [bringUp, bringUpEnd, bootEvents_append, bootEvents_map_bus, bootEvents_table, bootEvents, bringUpSessions,
    dataSession, bootContrastBytes]

theorem bootMillis_bringUp : bootMillis (bringUp ++ bringUpEnd) = 122 := by
  simp only [bringUp, bringUpEnd, bootMillis_append, bootMillis_map_bus, bootMillis_table, bootMillis]

theorem busLegal_bringUpSessions : busLegal false .data bringUpSessions = true := by
  simp [bringUpSessions, busLegal, busLegal_append, busLegal_dataSession, busLegal_cmdSession]

/-- The bring-up ends with a command session, which leaves the lines idle from wherever they stand. -/
theorem linesIdle_bringUpSessions (ce : Bool) (rs : RsMode) :
    ceAfter ce bringUpSessions = false ∧ rsAfter rs bringUpSessions = .data := by
  simp [bringUpSessions, ceAfter, rsAfter]

theorem txCount_cmdSession (bytes : List Byte) : txCount (cmdSession bytes) = bytes.length := by
  rw [cmdSession_eq_commandBurst, txCount_commandBurst, List.length_map]

theorem txCount_dataSession (bytes : List Byte) : txCount (dataSession bytes) = bytes.length := by
  rw [dataSession_eq_dataBurst, txCount_dataBurst, List.length_map]

theorem txCount_rs (m : RsMode) (es : List Event) : txCount (.rs m :: es) = txCount es := rfl

theorem txCount_ce (v : Bool) (es : List Event) : txCount (.ce v :: es) = txCount es := rfl

/-- The tables' 139 and 19 bytes, and the contrast command's three (R118, R119). -/
theorem txCount_bringUpSessions : txCount bringUpSessions = 161 := by
  simp [bringUpSessions, bootContrastBytes, txCount_rs, txCount_append, txCount_dataSession, txCount_cmdSession]

end Sys2Proof.Machine

/-! The statements about reset, the host's moves, costs and the bring-up (70_reset_and_hazards.md). -/

namespace Sys2Proof.Machine

/-- Settles O18, move by move: only a reset in mid-operation cuts a trace, and a beginning of a legal trace is legal. -/
theorem hostMovesKeepSafe : Obligations.HostMovesKeepSafe := by
  unfold Obligations.HostMovesKeepSafe
  intro s h
  exact ⟨h.presentWord, fun a v => h.withMem (hostWriteText_wf h.memory a v),
    fun a v => h.withMem (hostWritePixbuf_wf h.memory a v), fun a v => h.withMem (hostLoadFont_wf h.memory a v),
    fun a v => h.withMem (hostLoadPixtab_wf h.memory a v), h.assertReset, h.resetDuring⟩

/-- Settles O55: each command completes with events whose bytes are counted; a string has a cost only where it ends. -/
theorem byteCosts : Obligations.ByteCosts := by
  unfold Obligations.ByteCosts
  intro i s t n hidle hcost ht
  change SendsBytes s t n
  cases i with
  | setwindow x y width height =>
    exact .of_completed (setwindowCompletes ..).1 ((txCount_windowBurst ..).trans (Option.some.inj hcost)) ht
  | setcontrast contrast =>
    exact .of_completed (setcontrastCompletes ..) ((txCount_commandBurst _).trans (Option.some.inj hcost)) ht
  | setlcdon on =>
    exact .of_completed (setlcdonCompletes.1 ..) ((txCount_commandBurst _).trans (Option.some.inj hcost)) ht
  | inversescreen inverse =>
    exact .of_completed (inversescreenCompletes.1 ..) ((txCount_commandBurst _).trans (Option.some.inj hcost)) ht
  | setstartline line =>
    exact .of_completed (setstartlineCompletes ..) ((txCount_commandBurst _).trans (Option.some.inj hcost)) ht
  | setinverselines y height mode =>
    exact .of_completed (setinverselinesCompletes ..) ((txCount_commandBurst _).trans (Option.some.inj hcost)) ht
  | drawpixel x y color =>
    exact .of_completed (drawpixelCompletes ..) ((txCount_windowFilled ..).trans (Option.some.inj hcost)) ht
  | drawline x1 y1 x2 y2 color =>
    rw [byteCost_drawline, Option.some.injEq] at hcost
    exact .of_completed (drawline_completed ..) hcost ht
  | fillrect x y width height color =>
    have hdone := completed_of_bus (exec_fillrect s x y width height color) (ceAfter_fill ..) (rsAfter_fill ..)
    exact .of_completed hdone ((txCount_fill ..).trans (Option.some.inj hcost)) ht
  | drawrect x y width height color =>
    exact .of_completed (drawrect_completed ..) ((txCount_rectEvents ..).trans (Option.some.inj hcost)) ht
  | clear color =>
    obtain ⟨u, es, hu, hdone, -, -, hcount⟩ := clearCompletes s color
    exact .of_completed ⟨u, hu, hdone⟩ (hcount.trans (Option.some.inj hcost)) ht
  | drawbitmapb x y width height ptr => cases ht; exact Option.some.inj hcost ▸ .blit s .pixbuf ..
  | drawbitmapt x y width height ptr => cases ht; exact Option.some.inj hcost ▸ .blit s .pixtab ..
  | drawstring x y color background ptr =>
    obtain ⟨cs, hstr, hcs⟩ := Option.map_eq_some_iff.mp hcost
    obtain ⟨u, hu, hdone, -⟩ := drawstringCompletes s x y color background ptr cs hidle hstr
    exact .of_completed ⟨u, hu, hdone⟩ ((txCount_columnsEvents ..).trans hcs) ht

/-- Settles O58: the step's log is the log before it and its actions, and the reset follows the first `n` of them. -/
theorem resetDuringCutsTrace : Obligations.ResetDuringCutsTrace := by
  unfold Obligations.ResetDuringCutsTrace
  intro s t n hstep
  refine ⟨log_of_step hstep, assertReset_idle _, assertReset_ill _, assertReset_k _, trace_resetDuring s n,
    reads_resetDuring s n, ?_, txCount_resetEvents⟩
  rw [newEvents_of_step hstep]
  exact eventsOf_take_prefix _ n

/-- Settles O57: the trace grows by the line writes of a reset alone. -/
theorem assertResetIdles : Obligations.AssertResetIdles := by
  unfold Obligations.AssertResetIdles
  intro s
  refine ⟨assertReset_idle s, assertReset_ill s, assertReset_k s, ?_⟩
  rw [trace_assertReset, resetEvents, List.append_assoc]

/-- Settles O60: after the first two line writes the bring-up is three sessions, of any bytes. -/
theorem bringUpEndsIdle : Obligations.BringUpEndsIdle := by
  unfold Obligations.BringUpEndsIdle
  rw [bootEvents_bringUp, txCount_ce, txCount_rs]
  exact ⟨⟨_, rfl, busLegal_bringUpSessions⟩, fun ce rs => linesIdle_bringUpSessions false .data,
    txCount_bringUpSessions, bootMillis_bringUp⟩

end Sys2Proof.Machine
